-- ==== Sys2Proof/Word.lean ====
section
/-! DEFINITION. The word types of the block: the widths the spec gives its registers, its port and its CRC engine. -/

namespace Sys2Proof

/-- One byte: the host port's data width (R6 DATA_WIDTH). -/
abbrev Byte := BitVec 8

/-- A block-local byte address (R6 ADDR_WIDTH, R51). -/
abbrev Addr := BitVec 6

/-- RAW_T and RAW_H (R33, R34). -/
abbrev Half := BitVec 16

/-- TEMP_C and AH (R35, R36). -/
abbrev Word := BitVec 32

/-- A BUS15 transaction word (R90). -/
abbrev BusWord := BitVec 15

/-- A 17-bit message: the valid bit above the 16-bit value (R13, R85). -/
abbrev Payload := BitVec 17

/-- A 7-bit checksum (R6 CRC_WIDTH). -/
abbrev Crc := BitVec 7

/-- The 24-bit working register of the CRC7 long division (R6 WORK_WIDTH, R120). -/
abbrev WorkReg := BitVec 24

end Sys2Proof
end

