-- ==== Sys2Proof/Syntax.lean ====
section
/-! DEFINITION. The instructions: one constructor per row of the opcode table, and the two formats they are written in. -/

namespace Sys2Proof

/-- The sub-block a command selects by its sel bit (R81), and the sub-block an error names (R26). -/
inductive Sel where
  | temperature   -- sel = 0: IN0..IN2
  | humidity      -- sel = 1: IN3..IN5
deriving DecidableEq, Repr

/-- What a CMD8 byte asks for (R89). -/
inductive Command where
  | nop
  | crc7 (sel : Sel)
  | decode (sel : Sel)
  | convert
  | ahum
  | measure
  | illegal
deriving DecidableEq, Repr

/-- The two formats, each of one fixed length (R80). -/
inductive Format where
  | cmd8    -- the byte the host writes to CMD
  | bus15   -- a host transaction
deriving DecidableEq, Repr

/-- The instructions (R82, R83, R90). A CMD8 instruction is the command a write of its byte to CMD runs;
a BUS15 instruction is one transaction of the host. -/
inductive Instr where
  | nop                               -- NOP, R104
  | crc7 (sel : Sel)                  -- CRC7, R127
  | decode (sel : Sel)                -- DECODE, R145
  | convert                           -- CONVERT, R165
  | ahum                              -- AHUM, R176
  | measure                           -- MEASURE, R190
  | illegal (byte : Byte)             -- ILLEGAL, R102: one of the 248 bytes that are not legal
  | wr (addr : Addr) (data : Byte)    -- WR, R61
  | rd (addr : Addr)                  -- RD, R60
deriving DecidableEq, Repr

/-- Why bytes are no instruction. A CMD8 byte always is one (R89). -/
inductive DecodeError where
  | truncated      -- fewer bytes than the format has (R80, R88)
  | spareBitSet    -- bit 15 of a transaction's two bytes, which a 15-bit word does not have (R90; log 5)
deriving DecidableEq, Repr

end Sys2Proof
end

