-- ==== Sys2Proof/Decode.lean ====
section
/-! DEFINITION. The decoder of the two formats, and after it the encoder, both from 30_encoding.md. -/

namespace Sys2Proof

/-! ## CMD8 -/

/-- Field op, bits 2:0 (R81). -/
def cmdOp (c : Byte) : BitVec 3 := c.extractLsb' 0 3

/-- Field sel, bit 3 (R81). -/
def cmdSel (c : Byte) : Bool := c.getLsbD 3

/-- Field rsvd, bits 7:4 (R81). -/
def cmdRsvd (c : Byte) : BitVec 4 := c.extractLsb' 4 4

/-- A CMD8 byte is legal exactly when its three conditions hold (R83). -/
def cmdLegal (c : Byte) : Bool :=
  (cmdRsvd c == 0) && decide (cmdOp c ≤ 5) && (!cmdSel c || cmdOp c == 1 || cmdOp c == 2)

/-- The sub-block a sel bit names (R81). -/
def selOfBit (b : Bool) : Sel := if b then .humidity else .temperature

/-- The sel bit of a sub-block (R81). -/
def selBit : Sel → Bool
  | .temperature => false
  | .humidity => true

/-- The command of a CMD8 byte, total on all 256 values (R89). -/
def decodeCommand (c : Byte) : Command :=
  if cmdLegal c then
    match (cmdOp c).toNat with
    | 0 => .nop
    | 1 => .crc7 (selOfBit (cmdSel c))
    | 2 => .decode (selOfBit (cmdSel c))
    | 3 => .convert
    | 4 => .ahum
    | 5 => .measure
    | _ => .illegal
  else .illegal

/-- The instruction that is command `k`, read from byte `c`: an illegal byte is kept in the syntax. -/
def commandInstr (c : Byte) (k : Command) : Instr :=
  match k with
  | .nop => .nop
  | .crc7 sel => .crc7 sel
  | .decode sel => .decode sel
  | .convert => .convert
  | .ahum => .ahum
  | .measure => .measure
  | .illegal => .illegal c

/-- The instruction of a CMD8 byte (R89). -/
def decodeCmd8 (c : Byte) : Instr := commandInstr c (decodeCommand c)

/-! ## BUS15 -/

/-- The transaction word with fields we, addr and data (R90). -/
def busWord (we : Bool) (addr : Addr) (data : Byte) : BusWord := BitVec.ofBool we ++ addr ++ data

/-- Field we, bit 14 (R90). -/
def busWe (w : BusWord) : Bool := w.getLsbD 14

/-- Field addr, bits 13:8 (R90). -/
def busAddr (w : BusWord) : Addr := w.extractLsb' 8 6

/-- Field data, bits 7:0 (R90). -/
def busData (w : BusWord) : Byte := w.extractLsb' 0 8

/-- The transaction of a BUS15 word. In a read word the data field is ignored (R90).
DEDUCED (log 4): a read word whose data is not 0x00 is the same read. -/
def decodeBus15 (w : BusWord) : Instr :=
  if busWe w then .wr (busAddr w) (busData w) else .rd (busAddr w)

/-! ## Bytes -/

/-- The length of a format in whole bytes (R80). -/
def formatBytes : Format → Nat
  | .cmd8 => 1
  | .bus15 => 2

/-- The first instruction of a list of bytes and the bytes after it; the length is known without lookahead (R88).
DESIGN CHOICE (log 5): a BUS15 word is laid out as two bytes, the lower first, with bit 15 clear; the spec gives the
word no bytes. -/
def decode (f : Format) (bytes : List Byte) : Except DecodeError (Instr × List Byte) :=
  match f, bytes with
  | .cmd8, c :: rest => .ok (decodeCmd8 c, rest)
  | .bus15, lo :: hi :: rest =>
    if hi.getLsbD 7 then .error .spareBitSet else .ok (decodeBus15 (hi.extractLsb' 0 7 ++ lo), rest)
  | _, _ => .error .truncated

/-! ## The encoder -/

/-- The CMD8 byte with fields op and sel, rsvd = 0 (R81). -/
def cmdByte (op : BitVec 3) (sel : Bool) : Byte := (0#4 ++ BitVec.ofBool sel) ++ op

/-- The two bytes of a BUS15 word (log 5). -/
def busBytes (w : BusWord) : List Byte := [w.extractLsb' 0 8, 0#1 ++ w.extractLsb' 8 7]

/-- The format an instruction is written in (R82, R90). -/
def instrFormat : Instr → Format
  | .nop => .cmd8
  | .crc7 _ => .cmd8
  | .decode _ => .cmd8
  | .convert => .cmd8
  | .ahum => .cmd8
  | .measure => .cmd8
  | .illegal _ => .cmd8
  | .wr _ _ => .bus15
  | .rd _ => .bus15

/-- The bytes of an instruction (R82, R90). -/
def encode : Instr → List Byte
  | .nop => [cmdByte 0 false]
  | .crc7 sel => [cmdByte 1 (selBit sel)]
  | .decode sel => [cmdByte 2 (selBit sel)]
  | .convert => [cmdByte 3 false]
  | .ahum => [cmdByte 4 false]
  | .measure => [cmdByte 5 false]
  | .illegal c => [c]
  | .wr a v => busBytes (busWord true a v)
  | .rd a => busBytes (busWord false a 0)

/-! ## Words as spec/opcode_table.json numbers them -/

/-- The address of CMD (R20). -/
def cmdAddr : Addr := 0x08

/-- The transaction that writes command byte `c` to CMD (R91). -/
def cmdWord (c : Byte) : BusWord := busWord true cmdAddr c

/-- The format whose rows have `nbits` bits in the table: CMD8 has 8, BUS15 has 15, which are 16 in whole bytes. -/
def formatOfBits (nbits : Nat) : Option Format :=
  if nbits = 8 then some .cmd8 else if nbits = 15 ∨ nbits = 16 then some .bus15 else none

/-- The `n` bytes of `w`, bits 7:0 first. -/
def bytesOfNat : Nat → Nat → List Byte
  | 0, _ => []
  | n + 1, w => BitVec.ofNat 8 w :: bytesOfNat n (w / 256)

/-- The instruction the decoder reads from the table word `w` of `nbits` bits; none where it refuses. -/
def decodeTableWord (nbits w : Nat) : Option Instr :=
  match formatOfBits nbits with
  | none => none
  | some f =>
    if w < 256 ^ formatBytes f then
      match decode f (bytesOfNat (formatBytes f) w) with
      | .ok (i, _) => some i
      | .error _ => none
    else none

/-- The host transaction that runs the table word `w` of `nbits` bits: the transaction itself, or the write of the
byte to CMD (R90, R91); none where the decoder refuses (log 6). -/
def transactionOfTableWord (nbits w : Nat) : Option BusWord :=
  match decodeTableWord nbits w with
  | none => none
  | some _ => if nbits = 8 then some (cmdWord (BitVec.ofNat 8 w)) else some (BitVec.ofNat 15 w)

end Sys2Proof
end

