-- ==== Sys2Proof/Machine/Magnus.lean ====
section
/-! DEFINITION. The exact absolute humidity (Magnus formula, R170) and the accuracy an approximation of it must have (R175).
Real-valued: these say what the parameter ahApprox may be, and no step computes them. -/

namespace Sys2Proof.Machine

/-- AH_exact(t, h) in g/m^3, the source's formula in exact real arithmetic, its constants exact decimals (R170). -/
noncomputable def ahExact (t h : Half) : ℝ :=
  let tC : ℝ := (t.toNat : ℝ) / 64 - 273.15
  let es : ℝ := 6.112 * Real.exp (17.67 * tC / (tC + 243.5))
  2.1674 * es * ((h.toNat : ℝ) / 512) / (273.15 + tC)

/-- AH_MAX, the largest value Q16.16 holds (R171). -/
noncomputable def ahMax : ℝ := (2 ^ 32 - 1) / 2 ^ 16

/-- The accuracy property (a) to (c) of R175 for a result (q, ovf) at exact value `x` and tolerance `tol`. -/
def ahAccurate (tol x : ℝ) (r : Word × Bool) : Prop :=
  (x ≤ ahMax - tol → r.2 = false ∧ |(r.1.toNat : ℝ) / 65536 - x| ≤ tol) ∧
  (ahMax + tol < x → r.2 = true) ∧
  (ahMax - tol < x → x ≤ ahMax + tol →
    r.2 = true ∨ (r.2 = false ∧ |(r.1.toNat : ℝ) / 65536 - x| ≤ tol))

end Sys2Proof.Machine
end

