-- ==== Sys2Proof/Machine/AhReference.lean ====
section
/-! DEFINITION. A computable function with the accuracy property of R175, and the proof that it has it. The model uses it
for ONE purpose: it shows that a conforming absolute-humidity unit exists, so that Config can speak of an arbitrary one.
No step computes with it, and no claim may rest on its values (R178). -/

namespace Sys2Proof.Machine

/-- The exponent 17.67 * tC / (tC + 243.5) of R170 as a rational number. -/
def ahRefExponent (t : Nat) : ℚ := 1767 * (10 * t - 174816) / (100 * (10 * t - 18976))

/-- The first `n` terms of the exponential series. -/
def ahRefSeries : Nat → ℚ → ℚ
  | 0, _ => 0
  | n + 1, y => ahRefSeries n y + y ^ n / n.factorial

/-- AH_exact with exp(x) replaced by the 32nd power of the series at x / 32. -/
def ahRefValue (t h : Nat) : ℚ :=
  2.1674 * 6.112 * (h / 512) * (64 / t) * ahRefSeries 18 (ahRefExponent t / 32) ^ 32

/-- One function with the property of R175: round to nearest of `ahRefValue`, saturating from 2^32 on and below the
pole of the exponent, and 0 where the exponent is at most -20. -/
def ahReference (t h : Half) : Word × Bool :=
  if t.toNat ≤ 1897 then (0, true)
  else if ahRefExponent t.toNat ≤ -20 then (0, false)
  else
    let n : Nat := ⌊ahRefValue t.toNat h.toNat * 65536 + 1 / 2⌋₊
    if n < 2 ^ 32 then (BitVec.ofNat 32 n, false) else (0, true)

theorem ahRefSeries_cast (n : Nat) (y : ℚ) :
    ((ahRefSeries n y : ℚ) : ℝ) = ∑ m ∈ Finset.range n, (y : ℝ) ^ m / m.factorial := by
  induction n with
  | zero => simp [ahRefSeries]
  | succ n ih => rw [ahRefSeries, Finset.sum_range_succ, ← ih]; push_cast; rfl

theorem ahRefSeries_near_exp {y : ℚ} (lo : -(5 / 8) < y) (hi : y ≤ 3 / 7) :
    |((ahRefSeries 18 y : ℚ) : ℝ) - Real.exp y| ≤ 1 / 10 ^ 15 := by
  have lo' : (-(5 / 8) : ℝ) < y := by
    have := (Rat.cast_lt (K := ℝ)).mpr lo; push_cast at this; exact this
  have hi' : (y : ℝ) ≤ 3 / 7 := by
    have := (Rat.cast_le (K := ℝ)).mpr hi; push_cast at this; exact this
  have hy : |(y : ℝ)| ≤ 1 := by rw [abs_le]; constructor <;> linarith
  rw [ahRefSeries_cast, abs_sub_comm]
  refine (Real.exp_bound hy (n := 18) (by norm_num)).trans ?_
  have : |(y : ℝ)| ^ 18 ≤ 1 := pow_le_one₀ (abs_nonneg _) hy
  have k : (0 : ℝ) ≤ (((18 : ℕ).succ : ℝ) / (((18 : ℕ).factorial : ℝ) * ((18 : ℕ) : ℝ))) := by positivity
  refine (mul_le_mul_of_nonneg_right this k).trans ?_
  norm_num [Nat.factorial]

theorem exp_le_two {y : ℝ} (hi : y ≤ 3 / 7) : Real.exp y ≤ 7 / 4 := by
  have h1 : 1 - 3 / 7 ≤ Real.exp (-y) := by
    have := Real.add_one_le_exp (-y); linarith
  rw [Real.exp_neg] at h1
  have p := Real.exp_pos y
  rw [le_inv_comm₀ (by norm_num) p] at h1
  refine h1.trans (by norm_num)

theorem ahRefPower_near_exp {x : ℚ} (lo : -20 < x) (hi : x ≤ 96 / 7) :
    |((ahRefSeries 18 (x / 32) : ℚ) : ℝ) ^ 32 - Real.exp x| ≤ 1 / 1000 := by
  have near := ahRefSeries_near_exp (y := x / 32) (by linarith) (by linarith)
  have e32 : Real.exp x = Real.exp ((x / 32 : ℚ) : ℝ) ^ 32 := by
    rw [← Real.exp_nat_mul]; congr 1; push_cast; ring
  have hi' : ((x / 32 : ℚ) : ℝ) ≤ 3 / 7 := by
    have h : x / 32 ≤ 3 / 7 := by linarith
    have := (Rat.cast_le (K := ℝ)).mpr h; push_cast at this ⊢; exact this
  have b := exp_le_two hi'
  have p := Real.exp_pos ((x / 32 : ℚ) : ℝ)
  rw [e32]
  set s := ((ahRefSeries 18 (x / 32) : ℚ) : ℝ)
  set e := Real.exp ((x / 32 : ℚ) : ℝ)
  have sb : |s| ≤ 2 := by
    have := abs_le.mp near
    rw [abs_le]; constructor <;> norm_num at * <;> linarith
  have eb : |e| ≤ 2 := by rw [abs_of_pos p]; linarith
  have m : max |s| |e| ^ 31 ≤ 2 ^ 31 := pow_le_pow_left₀ (le_max_of_le_left (abs_nonneg _)) (max_le sb eb) _
  calc |s ^ 32 - e ^ 32| ≤ |s - e| * 32 * max |s| |e| ^ 31 := by
        simpa using abs_pow_sub_pow_le s e 32
    _ ≤ (1 / 10 ^ 15) * 32 * 2 ^ 31 := by gcongr
    _ ≤ 1 / 1000 := by norm_num

/-- The factor before exp in R170. -/
noncomputable def ahCoeff (t h : Half) : ℝ := 2.1674 * 6.112 * ((h.toNat : ℝ) / 512) * (64 / t.toNat)

theorem ahExact_eq {t h : Half} (ht : t ≠ 0#16) :
    ahExact t h = ahCoeff t h * Real.exp (17.67 * (10 * t.toNat - 174816) / (10 * t.toNat - 18976)) := by
  have pos : (t.toNat : ℝ) ≠ 0 := by
    simpa [BitVec.toNat_eq] using ht
  have den : (10 * (t.toNat : ℝ) - 18976) ≠ 0 := by
    intro h0
    have : (10 * (t.toNat : ℤ) - 18976) = 0 := by exact_mod_cast h0
    omega
  have ex : 17.67 * ((t.toNat : ℝ) / 64 - 273.15) / ((t.toNat : ℝ) / 64 - 273.15 + 243.5)
      = 17.67 * (10 * t.toNat - 174816) / (10 * t.toNat - 18976) := by
    have den' : (t.toNat : ℝ) / 64 - 273.15 + 243.5 ≠ 0 := by
      intro h0; apply den; linarith
    rw [div_eq_div_iff den' den]; ring
  unfold ahExact ahCoeff
  simp only [ex]
  have : (273.15 + ((t.toNat : ℝ) / 64 - 273.15)) = t.toNat / 64 := by ring
  rw [this]
  field_simp

theorem ahCoeff_nonneg (t h : Half) : 0 ≤ ahCoeff t h := by unfold ahCoeff; positivity

theorem ahCoeff_le {t h : Half} (ht : 1898 ≤ t.toNat) : ahCoeff t h ≤ 60 := by
  have hh : (h.toNat : ℝ) ≤ 65535 := by
    have := h.isLt; exact_mod_cast (show h.toNat ≤ 65535 by omega)
  have tt : (1898 : ℝ) ≤ t.toNat := by exact_mod_cast ht
  have : (64 : ℝ) / t.toNat ≤ 64 / 1898 := by gcongr
  calc ahCoeff t h ≤ 2.1674 * 6.112 * (65535 / 512) * (64 / 1898) := by
        unfold ahCoeff; gcongr
    _ ≤ 60 := by norm_num

theorem ahExact_nonneg {t h : Half} (ht : t ≠ 0#16) : 0 ≤ ahExact t h := by
  rw [ahExact_eq ht]; exact mul_nonneg (ahCoeff_nonneg t h) (Real.exp_pos _).le

theorem two_pow_le_exp (n : ℕ) : (2 : ℝ) ^ n ≤ Real.exp n := by
  have h1 : (2 : ℝ) ≤ Real.exp 1 := by have := Real.add_one_le_exp (1 : ℝ); linarith
  calc (2 : ℝ) ^ n ≤ Real.exp 1 ^ n := by gcongr
    _ = Real.exp n := by rw [← Real.exp_nat_mul, mul_one]

theorem ahExact_below_pole {t h : Half} (ht : t ≠ 0#16) (hh : h ≠ 0#16) (lt : t.toNat ≤ 1897) :
    70000 < ahExact t h := by
  have t1 : (1 : ℝ) ≤ t.toNat := by
    have : t.toNat ≠ 0 := by simpa [BitVec.toNat_eq] using ht
    exact_mod_cast (show 1 ≤ t.toNat by omega)
  have h1 : (1 : ℝ) ≤ h.toNat := by
    have : h.toNat ≠ 0 := by simpa [BitVec.toNat_eq] using hh
    exact_mod_cast (show 1 ≤ h.toNat by omega)
  have t2 : (t.toNat : ℝ) ≤ 1897 := by exact_mod_cast lt
  have ex : (162 : ℝ) ≤ 17.67 * (10 * t.toNat - 174816) / (10 * t.toNat - 18976) := by
    rw [le_div_iff_of_neg (by linarith)]; linarith
  have big : (2 : ℝ) ^ 162 ≤ Real.exp (17.67 * (10 * t.toNat - 174816) / (10 * t.toNat - 18976)) :=
    (two_pow_le_exp 162).trans (Real.exp_le_exp.mpr (by exact_mod_cast ex))
  have c : 2.1674 * 6.112 * ((1 : ℝ) / 512) * (64 / 1897) ≤ ahCoeff t h := by
    unfold ahCoeff; gcongr
  rw [ahExact_eq ht]
  calc (70000 : ℝ) < 2.1674 * 6.112 * ((1 : ℝ) / 512) * (64 / 1897) * 2 ^ 162 := by norm_num
    _ ≤ _ := by gcongr

theorem ahRefExponent_cast (t : ℕ) :
    ((ahRefExponent t : ℚ) : ℝ) = 17.67 * (10 * t - 174816) / (10 * t - 18976) := by
  unfold ahRefExponent
  push_cast
  rw [show (17.67 : ℝ) = 1767 / 100 by norm_num, mul_comm (100 : ℝ), ← div_div]
  ring
  

theorem ahReference_accurate {t h : Half} (ht : t ≠ 0#16) (hh : h ≠ 0#16) :
    ahAccurate (12 / 25) (ahExact t h) (ahReference t h) := by
  have mx : ahMax = 65535.9999847412109375 := by unfold ahMax; norm_num
  by_cases c1 : t.toNat ≤ 1897
  · have := ahExact_below_pole ht hh c1
    simp only [ahReference, c1, if_true, ahAccurate, mx]
    refine ⟨fun h => ?_, by simp, by simp⟩
    norm_num at h; linarith
  have x0 := ahExact_nonneg (h := h) ht
  have ge : 1898 ≤ t.toNat := by omega
  have cast := ahRefExponent_cast t.toNat
  have eq := ahExact_eq (h := h) ht
  rw [← cast] at eq
  have c0 := ahCoeff_nonneg t h
  have c60 := ahCoeff_le (h := h) ge
  by_cases c2 : ahRefExponent t.toNat ≤ -20
  · have e20 : Real.exp (ahRefExponent t.toNat : ℚ) ≤ 1 / 2 ^ 20 := by
      have : ((ahRefExponent t.toNat : ℚ) : ℝ) ≤ -20 := by
        have := (Rat.cast_le (K := ℝ)).mpr c2; push_cast at this; exact this
      refine (Real.exp_le_exp.mpr this).trans ?_
      rw [Real.exp_neg, one_div]
      exact inv_anti₀ (by positivity) (by exact_mod_cast two_pow_le_exp 20)
    have small : ahExact t h ≤ 60 * (1 / 2 ^ 20) := by
      rw [eq]; gcongr
    have near : |((0 : ℕ) : ℝ) / 65536 - ahExact t h| ≤ 12 / 25 := by
      rw [abs_le]; constructor <;> norm_num at * <;> linarith
    simp only [ahReference, c1, c2, if_true, if_false, ahAccurate, mx]
    refine ⟨fun _ => ⟨trivial, near⟩, fun h => ?_, fun _ _ => .inr ⟨trivial, near⟩⟩
    norm_num at h small; linarith
  have hi : ahRefExponent t.toNat ≤ 96 / 7 := by
    have lt := t.isLt
    have a : (1898 : ℚ) ≤ t.toNat := by exact_mod_cast ge
    have b : (t.toNat : ℚ) ≤ 65535 := by exact_mod_cast (show t.toNat ≤ 65535 by omega)
    unfold ahRefExponent
    rw [div_le_iff₀ (by linarith)]; linarith
  have near := ahRefPower_near_exp (lt_of_not_ge c2) hi
  have val : ((ahRefValue t.toNat h.toNat : ℚ) : ℝ)
      = ahCoeff t h * ((ahRefSeries 18 (ahRefExponent t.toNat / 32) : ℚ) : ℝ) ^ 32 := by
    unfold ahRefValue ahCoeff; push_cast; ring
  have close : |((ahRefValue t.toNat h.toNat : ℚ) : ℝ) - ahExact t h| ≤ 0.06 := by
    rw [val, eq, ← mul_sub, abs_mul, abs_of_nonneg c0]
    calc _ ≤ (60 : ℝ) * (1 / 1000) := by gcongr
      _ ≤ _ := by norm_num
  have v0 : 0 ≤ ahRefValue t.toNat h.toNat := by
    unfold ahRefValue
    have : 0 ≤ ahRefSeries 18 (ahRefExponent t.toNat / 32) ^ 32 := by
      rw [show 32 = 2 * 16 by rfl, pow_mul]; positivity
    positivity
  set v := ahRefValue t.toNat h.toNat
  have f1 := Nat.floor_le (show 0 ≤ v * 65536 + 1 / 2 by positivity)
  have f2 := Nat.lt_floor_add_one (v * 65536 + 1 / 2)
  set n := ⌊v * 65536 + 1 / 2⌋₊ with hn
  have f1' := (Rat.cast_le (K := ℝ)).mpr f1
  have f2' := (Rat.cast_lt (K := ℝ)).mpr f2
  push_cast at f1' f2'
  obtain ⟨k1, k2⟩ := abs_le.mp close
  have res : ahReference t h = if n < 2 ^ 32 then (BitVec.ofNat 32 n, false) else (0, true) := by
    simp only [ahReference, c1, c2, if_false]; rfl
  rw [res]
  by_cases c3 : n < 2 ^ 32
  · have c3' : (n : ℝ) ≤ 4294967295 := by exact_mod_cast (show n ≤ 4294967295 by omega)
    have q : ((BitVec.ofNat 32 n).toNat : ℝ) = n := by
      rw [BitVec.toNat_ofNat, Nat.mod_eq_of_lt c3]
    have nr : |((BitVec.ofNat 32 n).toNat : ℝ) / 65536 - ahExact t h| ≤ 12 / 25 := by
      rw [q, abs_le]; norm_num at k1 k2; constructor <;> linarith
    simp only [c3, if_true, ahAccurate, mx]
    refine ⟨fun _ => ⟨trivial, nr⟩, fun h => ?_, fun _ _ => .inr ⟨trivial, nr⟩⟩
    norm_num at h k1; linarith
  · have c3' : (4294967296 : ℝ) ≤ n := by exact_mod_cast not_lt.mp c3
    simp only [c3, if_false, ahAccurate, mx]
    refine ⟨fun h => ?_, by simp, by simp⟩
    norm_num at h k2; linarith

end Sys2Proof.Machine
end

