-- ==== Sys2Proof/Config.lean ====
section
/-! DEFINITION. What is fixed for one block: the named constants of R6 and R7, and the parameters the spec leaves open, each
an opaque constant without a body, so that no proof can see which value it has. -/

namespace Sys2Proof

open Sys2Proof.Machine

/-! ## Named constants (R6, R7) -/

/-- MSG_WIDTH (R6). -/
def Config.msgWidth : Nat := 17

/-- CRC_WIDTH (R6). -/
def Config.crcWidth : Nat := 7

/-- WORK_WIDTH = MSG_WIDTH + CRC_WIDTH (R6). -/
def Config.workWidth : Nat := Config.msgWidth + Config.crcWidth

/-- CRC_POLY = x^7 + x^3 + 1 (R6). -/
def Config.crcPoly : WorkReg := 0x89

/-- CRC_IVEC (R6). -/
def Config.crcIvec : Crc := 0x7F

/-- T_DIV: RAW_T counts 1/64 K (R6). -/
def Config.tDiv : ℚ := 64

/-- T_OFFSET in K (R6). -/
def Config.tOffset : ℚ := 27315 / 100

/-- H_DIV: RAW_H counts 1/512 percent (R6). -/
def Config.hDiv : ℚ := 512

/-! ## Open parameters -/

/-- A unit that computes absolute humidity: the function ahApprox and the tolerance AH_TOL it declares, with the bounds
of R6 and the accuracy of R175 for every t ≥ 1 and h ≥ 1. -/
structure Config.AhUnit where
  approx : Half → Half → Word × Bool
  tol : ℝ
  tol_min : (2 : ℝ) ^ (-17 : ℤ) ≤ tol
  tol_max : tol ≤ 0.48
  accurate : ∀ t h, t ≠ 0#16 → h ≠ 0#16 → ahAccurate tol (ahExact t h) (approx t h)

/-- A unit of that kind exists (R175: the property can be met). -/
def Config.ahWitness : Config.AhUnit where
  approx := ahReference
  tol := ((12 / 25 : ℚ) : ℝ)
  tol_min := by norm_num
  tol_max := by norm_num
  accurate t h ht hh := by
    have := ahReference_accurate ht hh
    norm_num at this ⊢; exact this

/-- The block's unit: AN ARBITRARY ONE. The constant has no body; all that can be proved of it is what its type says,
R175 (log 3). -/
opaque Config.ahUnit [Inhabited Config.AhUnit] : Config.AhUnit

/-- The parameter ahApprox(t, h) -> (q, ovf) (R6, R171): uninterpreted but for R175. -/
def Config.ahApprox (t h : Half) : Word × Bool := (@Config.ahUnit ⟨Config.ahWitness⟩).approx t h

/-- The parameter AH_TOL in g/m^3 (R6). -/
def Config.ahTol : ℝ := (@Config.ahUnit ⟨Config.ahWitness⟩).tol

/-- AH_TOL lies in its range (R6). -/
theorem Config.ahTol_bounds : (2 : ℝ) ^ (-17 : ℤ) ≤ Config.ahTol ∧ Config.ahTol ≤ 0.48 :=
  ⟨(@Config.ahUnit ⟨Config.ahWitness⟩).tol_min, (@Config.ahUnit ⟨Config.ahWitness⟩).tol_max⟩

/-- All that may be assumed of ahApprox (R171, R175, R178). -/
theorem Config.ahApprox_accurate {t h : Half} (ht : t ≠ 0#16) (hh : h ≠ 0#16) :
    ahAccurate Config.ahTol (ahExact t h) (Config.ahApprox t h) :=
  (@Config.ahUnit ⟨Config.ahWitness⟩).accurate t h ht hh

/-- How a unit was built (R6 AH_IMPL). -/
inductive Config.AhImpl where
  | lookupTable
  | rationalApproximation
deriving DecidableEq, Repr, Inhabited

/-- AH_IMPL: not observable, so nothing reads it (R178). -/
opaque Config.ahImpl : Config.AhImpl

/-- CMD_WAIT: the wait cycles of the n-th transaction, finite and possibly different for each (R6, R53, R421; log 9).
Only the port monitor reads it. -/
opaque Config.cmdWait : Nat → Nat

/-- The byte a register location holds at power-up, before the first reset: unspecified (R403; log 10). -/
opaque Config.powerUpByte : Nat → Byte

end Sys2Proof
end

