-- ==== Sys2Proof/Machine/State.lean ====
section
/-! DEFINITION. The state of the block, the outcomes of a step, and the state after reset. -/

namespace Sys2Proof.Machine

/-- The input image IN0..IN5, a copy of the sensor's T_VAL..H_VAL (R20, R22, R55). -/
structure Image where
  in0 : Byte
  in1 : Byte
  in2 : Byte
  in3 : Byte
  in4 : Byte
  in5 : Byte
deriving DecidableEq, Repr

/-- The block's whole architectural state (R20). CMD has no storage (R22). -/
structure Regs where
  image : Image
  /-- STATUS (R23 to R31): OK[0], ERR[2:1], ERR_SUB[3], AH_VALID[4], AH_OVF[5], AH_DOM[6], bit 7 reserved. -/
  status : Byte
  /-- CRC_RES: the CRC7 in bits 6:0, bit 7 reads 0 (R32). -/
  crcRes : Byte
  /-- RAW_T, in 1/64 K (R33). -/
  rawT : Half
  /-- RAW_H, in 1/512 percent (R34). -/
  rawH : Half
  /-- TEMP_C, two's complement, in 1/6400 °C (R35). -/
  tempC : Word
  /-- AH, Q16.16 g/m^3 (R36). -/
  ah : Word
deriving DecidableEq, Repr

/-- The outputs of the host port after a step (R52). -/
structure PortOut where
  /-- The step completed a transaction (R53). -/
  ack : Bool
  /-- The read data, valid only where the step completed a read (R52; log 2). -/
  rdata : Option Byte
deriving DecidableEq, Repr

/-- How a host breaks the port protocol (R414). -/
inductive ProtocolViolation where
  | requestDropped       -- req fell before the ack
  | signalsChanged       -- we, addr or wdata changed before the ack
  | requestNotReleased   -- req stayed 1 in the cycle after the ack
deriving DecidableEq, Repr

/-- What the host does next at the port (R50, R52, R400, R402, R414). -/
inductive HostAction where
  | transaction (w : BusWord)            -- a completed transaction {we, addr, data} (R53, R90)
  | reset                                -- rst_n = 0 at a rising edge, no transaction pending (R400)
  | resetDuring (w : BusWord)            -- reset while transaction w is pending, before its ack (R402)
  | violation (v : ProtocolViolation)    -- a transaction that breaks the protocol (R414)
deriving DecidableEq, Repr

/-- The machine: the block's registers, the outputs of its port, and the MODEL's own list of the host actions still to
come, the next one first (R38 calls the host's sequence no state of the block; log 1). -/
structure State where
  regs : Regs
  port : PortOut
  inputs : List HostAction
deriving DecidableEq, Repr

/-- The reasons a step stops with a fault. -/
inductive Fault where
  /-- Raised by `step` for a transaction that breaks the port protocol, which R414 makes a fault and gives no effect.
  Safe: the model goes no further, whatever the hardware does. -/
  | portProtocol (v : ProtocolViolation)
deriving DecidableEq, Repr

/-- The reasons an instruction is refused. -/
inductive Refusal where
  /-- Raised by an arm of `exec` for an instruction without a meaning yet; no arm raises it. Safe. -/
  | notModelled (mnemonic : String)
deriving DecidableEq, Repr

/-- The registers after reset: all zero (R20, R400). -/
def Regs.reset : Regs where
  image := ⟨0, 0, 0, 0, 0, 0⟩
  status := 0
  crcRes := 0
  rawT := 0
  rawH := 0
  tempC := 0
  ah := 0

/-- The port when no transaction has just completed: no ack, no read data (R52, R400). -/
def PortOut.quiet : PortOut where
  ack := false
  rdata := none

/-- The machine right after reset (R400, R401): every register zero, nothing acked, no host action listed (log 1). -/
def State.reset : State where
  regs := Regs.reset
  port := PortOut.quiet
  inputs := []

end Sys2Proof.Machine
end

