-- ==== Sys2Proof/Machine/Flags.lean ====
section
/-! DEFINITION. STATUS: its fields, the values a command writes there, and the values it can hold. -/

namespace Sys2Proof.Machine

/-- The errors a command raises (R300, R301, R302). -/
inductive CmdError where
  | invalidBit         -- the sub-block's valid bit is 0
  | checksumMismatch   -- the valid bit is 1 and the checksum is wrong
  | illegalCommand     -- the CMD byte is not legal
deriving DecidableEq, Repr

/-- code(E) (R303). -/
def errorCode : CmdError → BitVec 2
  | .invalidBit => 1
  | .checksumMismatch => 2
  | .illegalCommand => 3

/-- The value of ERR_SUB (R26). -/
def errorSub : Sel → BitVec 1
  | .temperature => 0
  | .humidity => 1

/-- The STATUS value of `complete(ah_valid, ah_ovf, ah_dom)`: {0, dom, ovf, valid, ERR_SUB 0, ERR 00, OK 1} (R103). -/
def statusComplete (ahValid ahOvf ahDom : Bool) : Byte :=
  0#1 ++ BitVec.ofBool ahDom ++ BitVec.ofBool ahOvf ++ BitVec.ofBool ahValid ++ 0#1 ++ 0#2 ++ 1#1

/-- The STATUS value of `raise E(sub)`: {0, 0, 0, 0, sub, code(E), OK 0} (R303). -/
def statusRaise (e : CmdError) (sub : Sel) : Byte :=
  0#4 ++ errorSub sub ++ errorCode e ++ 0#1

/-! ## Fields (R23) -/

/-- STATUS.OK (R24). -/
def statusOk (v : Byte) : Bool := v.getLsbD 0

/-- STATUS.ERR (R25). -/
def statusErr (v : Byte) : BitVec 2 := v.extractLsb' 1 2

/-- STATUS.ERR_SUB (R26). -/
def statusErrSub (v : Byte) : Bool := v.getLsbD 3

/-- STATUS.AH_VALID (R27). -/
def statusAhValid (v : Byte) : Bool := v.getLsbD 4

/-- STATUS.AH_OVF (R28). -/
def statusAhOvf (v : Byte) : Bool := v.getLsbD 5

/-- STATUS.AH_DOM (R29). -/
def statusAhDom (v : Byte) : Bool := v.getLsbD 6

/-- The values STATUS can hold (R31). -/
def statusValues : List Byte := [0x00, 0x01, 0x11, 0x21, 0x41, 0x02, 0x0A, 0x04, 0x0C, 0x06]

end Sys2Proof.Machine
end

