-- ==== Sys2Proof/Machine/Ops.lean ====
section
/-! DEFINITION. The named operations on registers, the register space and the port: every meaning is written over these. -/

namespace Sys2Proof.Machine

/-! ## Registers -/

/-- Writes STATUS. -/
def Regs.setStatus (r : Regs) (v : Byte) : Regs := { r with status := v }

/-- Writes CRC_RES. -/
def Regs.setCrcRes (r : Regs) (v : Byte) : Regs := { r with crcRes := v }

/-- Writes RAW_T. -/
def Regs.setRawT (r : Regs) (v : Half) : Regs := { r with rawT := v }

/-- Writes RAW_H. -/
def Regs.setRawH (r : Regs) (v : Half) : Regs := { r with rawH := v }

/-- Writes TEMP_C. -/
def Regs.setTempC (r : Regs) (v : Word) : Regs := { r with tempC := v }

/-- Writes AH. -/
def Regs.setAh (r : Regs) (v : Word) : Regs := { r with ah := v }

/-- Writes the image. -/
def Regs.setImage (r : Regs) (v : Image) : Regs := { r with image := v }

/-- IN[k] (R10). -/
def Image.get (m : Image) (k : Fin 6) : Byte :=
  match k with
  | 0 => m.in0
  | 1 => m.in1
  | 2 => m.in2
  | 3 => m.in3
  | 4 => m.in4
  | 5 => m.in5

/-- IN[k] <- v (R61). -/
def Image.set (m : Image) (k : Fin 6) (v : Byte) : Image :=
  match k with
  | 0 => { m with in0 := v }
  | 1 => { m with in1 := v }
  | 2 => { m with in2 := v }
  | 3 => { m with in3 := v }
  | 4 => { m with in4 := v }
  | 5 => { m with in5 := v }

/-! ## How a command ends -/

/-- `complete(ah_valid, ah_ovf, ah_dom)`: the command ends without error and overwrites all of STATUS (R11, R103). -/
def Regs.complete (r : Regs) (ahValid ahOvf ahDom : Bool) : Regs :=
  r.setStatus (statusComplete ahValid ahOvf ahDom)

/-- `raise E(sub)`: taking an exception on this block. STATUS is overwritten with OK = 0, the code and the sub-block;
no other register is written, no mode changes and nothing is vectored to (R11, R303, R308). There is no return from it:
the next command simply overwrites STATUS (R309). -/
def Regs.raise (r : Regs) (e : CmdError) (sub : Sel) : Regs :=
  r.setStatus (statusRaise e sub)

/-! ## The register space -/

/-- What stands at an address: a byte of a register, CMD, or nothing. Byte 0 of a register is its least significant. -/
inductive Loc where
  | input (k : Fin 6)
  | cmd
  | status
  | crcRes
  | rawT (k : Fin 2)
  | rawH (k : Fin 2)
  | tempC (k : Fin 4)
  | ah (k : Fin 4)
  | reserved
deriving DecidableEq, Repr

/-- The address map (R20, R56, R60, R64). -/
def locate (a : Addr) : Loc :=
  match a.toNat with
  | 0x00 => .input 0
  | 0x01 => .input 1
  | 0x02 => .input 2
  | 0x03 => .input 3
  | 0x04 => .input 4
  | 0x05 => .input 5
  | 0x08 => .cmd
  | 0x09 => .status
  | 0x0A => .crcRes
  | 0x10 => .rawT 0
  | 0x11 => .rawT 1
  | 0x12 => .rawH 0
  | 0x13 => .rawH 1
  | 0x14 => .tempC 0
  | 0x15 => .tempC 1
  | 0x16 => .tempC 2
  | 0x17 => .tempC 3
  | 0x18 => .ah 0
  | 0x19 => .ah 1
  | 0x1A => .ah 2
  | 0x1B => .ah 3
  | _ => .reserved

/-- Byte `k` of a value, little-endian (R54). -/
def byteOf {n : Nat} (v : BitVec n) (k : Nat) : Byte := v.extractLsb' (8 * k) 8

/-- `v` with byte `k` replaced, the other byte kept (R61). -/
def withByte (v : Half) (k : Fin 2) (b : Byte) : Half :=
  match k with
  | 0 => byteOf v 1 ++ b
  | 1 => b ++ byteOf v 0

/-- MemRead(a, 1): the byte a host read returns (R60). -/
def Regs.read (r : Regs) (a : Addr) : Byte :=
  match locate a with
  | .input k => r.image.get k
  | .cmd => 0
  | .status => r.status
  | .crcRes => 0#1 ++ r.crcRes.extractLsb' 0 7
  | .rawT k => byteOf r.rawT k
  | .rawH k => byteOf r.rawH k
  | .tempC k => byteOf r.tempC k
  | .ah k => byteOf r.ah k
  | .reserved => 0

/-- MemWrite(a, 1, v) for every address but CMD: IN, RAW_T and RAW_H take the byte; read-only registers and reserved
addresses ignore it (R56, R61, R62). CMD holds nothing to store into (R22). -/
def Regs.store (r : Regs) (a : Addr) (v : Byte) : Regs :=
  match locate a with
  | .input k => r.setImage (r.image.set k v)
  | .rawT k => r.setRawT (withByte r.rawT k v)
  | .rawH k => r.setRawH (withByte r.rawH k v)
  | .cmd => r
  | .status => r
  | .crcRes => r
  | .tempC _ => r
  | .ah _ => r
  | .reserved => r

/-! ## The machine -/

/-- The state with the registers replaced. -/
def State.withRegs (s : State) (r : Regs) : State := { s with regs := r }

/-- A read's data on the port (R52). -/
def State.withRdata (s : State) (b : Byte) : State := { s with port := { s.port with rdata := some b } }

/-- The machine at the ack of its next transaction, `rest` the actions after it: the port acks, no read data yet (R53). -/
def State.beginTransaction (s : State) (rest : List HostAction) : State :=
  { s with port := { ack := true, rdata := none }, inputs := rest }

/-- Reset as a step of its own: every register takes its reset value, nothing is acked, and a transaction that was pending
has no effect (R400, R402). -/
def State.takeReset (s : State) (rest : List HostAction) : State :=
  { s with regs := Regs.reset, port := PortOut.quiet, inputs := rest }

/-- No host action: the block has no step of its own, so its registers stay (R50; log 1). -/
def State.idle (s : State) : State := { s with port := PortOut.quiet }

/-- `s` with the action `a` put before all others. -/
def State.pushInput (s : State) (a : HostAction) : State := { s with inputs := a :: s.inputs }

/-- `s` with the actions `as` put after all others. -/
def State.appendInputs (s : State) (as : List HostAction) : State := { s with inputs := s.inputs ++ as }

/-- `s` with the transaction of a table word as its next action; `s` itself where the decoder refuses the word
(log 6). -/
def State.withTableWord (s : State) (nbits w : Nat) : State :=
  match transactionOfTableWord nbits w with
  | some t => s.pushInput (.transaction t)
  | none => s

/-- Power-up, before the first reset: every register holds an unknown value of its width (R403; log 10). -/
def State.powerUp : State where
  regs :=
    { image := ⟨Config.powerUpByte 0x00, Config.powerUpByte 0x01, Config.powerUpByte 0x02,
        Config.powerUpByte 0x03, Config.powerUpByte 0x04, Config.powerUpByte 0x05⟩
      status := Config.powerUpByte 0x09
      crcRes := Config.powerUpByte 0x0A
      rawT := Config.powerUpByte 0x11 ++ Config.powerUpByte 0x10
      rawH := Config.powerUpByte 0x13 ++ Config.powerUpByte 0x12
      tempC := Config.powerUpByte 0x17 ++ Config.powerUpByte 0x16 ++ Config.powerUpByte 0x15 ++ Config.powerUpByte 0x14
      ah := Config.powerUpByte 0x1B ++ Config.powerUpByte 0x1A ++ Config.powerUpByte 0x19 ++ Config.powerUpByte 0x18 }
  port := PortOut.quiet
  inputs := []

end Sys2Proof.Machine
end

