-- ==== Sys2Proof/Machine/Convert.lean ====
section
/-! DEFINITION. Temperature and humidity conversion and the CONVERT command (43_convert.md section 1). -/

namespace Sys2Proof.Machine

/-- sext_32(100 * t - 1748160): TEMP_C in 1/6400 °C (R161). -/
def celsiusWord (t : Half) : Word := BitVec.ofInt 32 (100 * (t.toNat : Int) - 1748160)

/-- ConvertOp on the registers (R165). -/
def convertOp (r : Regs) : Regs := (r.setTempC (celsiusWord r.rawT)).complete false false false

/-- CONVERT (R165). -/
def execConvert (s : State) : Host.Outcome State Fault Refusal :=
  .next (s.withRegs (convertOp s.regs))

/-! ## What the fixed-point registers stand for -/

/-- The value of an unsigned fixed-point number with `n` fraction bits (R12). -/
def fixedValue {w : Nat} (n : Nat) (v : BitVec w) : ℚ := v.toNat / 2 ^ n

/-- Kelvin: RAW_T read as Q10.6 (R160). -/
def kelvin (t : Half) : ℚ := fixedValue 6 t

/-- Percent relative humidity: RAW_H read as Q7.9 (R163). -/
def relativeHumidity (h : Half) : ℚ := fixedValue 9 h

/-- Degrees Celsius: TEMP_C / 6400 (R12, R161). -/
def celsius (c : Word) : ℚ := c.toInt / 6400

/-- Absolute humidity in g/m^3: AH read as Q16.16 (R36). -/
def absoluteHumidity (a : Word) : ℚ := fixedValue 16 a

/-- The source's PhysicalMeasurement as a host reads it from the registers (R194). -/
structure PhysicalMeasurement where
  temperatureCelsius : ℚ
  humidityPercent : ℚ
deriving DecidableEq, Repr

/-- PhysicalMeasurement is TEMP_C / 6400 and RAW_H / 512 (R194). -/
def Regs.physical (r : Regs) : PhysicalMeasurement where
  temperatureCelsius := celsius r.tempC
  humidityPercent := relativeHumidity r.rawH

end Sys2Proof.Machine
end

