-- ==== Sys2Proof/Machine/Humidity.lean ====
section
/-! DEFINITION. Absolute humidity and the AHUM command (43_convert.md section 2). -/

namespace Sys2Proof.Machine

/-- What AhCompute returns: the value for AH where one is written, and the three AH flags (R176). -/
structure AhResult where
  write : Option Word
  valid : Bool
  ovf : Bool
  dom : Bool
deriving DecidableEq, Repr

/-- AhCompute(t, h): t = 0 has no value (R172); then h = 0 is exactly 0 without ahApprox (R174); then an overflow
saturates (R173); else the value of ahApprox (R171, R176). -/
def ahCompute (t h : Half) : AhResult :=
  if t = 0#16 then { write := none, valid := false, ovf := false, dom := true }
  else if h = 0#16 then { write := some 0#32, valid := true, ovf := false, dom := false }
  else if (Config.ahApprox t h).2 then { write := some 0xFFFFFFFF#32, valid := false, ovf := true, dom := false }
  else { write := some (Config.ahApprox t h).1, valid := true, ovf := false, dom := false }

/-- Writes AH where the result has a value for it, and completes with its flags (R176, R190). -/
def Regs.completeAh (r : Regs) (a : AhResult) : Regs :=
  match a.write with
  | none => r.complete a.valid a.ovf a.dom
  | some q => (r.setAh q).complete a.valid a.ovf a.dom

/-- AhumOp on the registers (R176). -/
def ahumOp (r : Regs) : Regs := r.completeAh (ahCompute r.rawT r.rawH)

/-- AHUM (R176). -/
def execAhum (s : State) : Host.Outcome State Fault Refusal :=
  .next (s.withRegs (ahumOp s.regs))

end Sys2Proof.Machine
end

