-- ==== Sys2Proof/Machine/Operands.lean ====
section
/-! DEFINITION. Operand assembly: a sub-block of the image and the fields the block extracts from it. -/

namespace Sys2Proof.Machine

/-- The three bytes IN[b], IN[b+1], IN[b+2] of a sub-block (R13, R85). -/
structure SubBlock where
  b0 : Byte
  b1 : Byte
  b2 : Byte
deriving DecidableEq, Repr

/-- What Extract returns (R85). -/
structure Fields where
  v17 : Payload
  valid : Bool
  value : Half
  chk : Crc
deriving DecidableEq, Repr

/-- The sub-block a sel names, base index 3 * sel (R22, R85). -/
def Image.sub (m : Image) (sel : Sel) : SubBlock :=
  match sel with
  | .temperature => ⟨m.in0, m.in1, m.in2⟩
  | .humidity => ⟨m.in3, m.in4, m.in5⟩

/-- Extract(b): v17 = (byte2 bit 0, byte1, byte0), valid = v17[16], value = v17[15:0], chk = byte2[7:1] (R85, R86). -/
def extract (sb : SubBlock) : Fields :=
  let v17 : Payload := sb.b2.extractLsb' 0 1 ++ sb.b1 ++ sb.b0
  { v17 := v17
    valid := v17.getLsbD 16
    value := v17.extractLsb' 0 16
    chk := sb.b2.extractLsb' 1 7 }

end Sys2Proof.Machine
end

