-- ==== Sys2Proof/Machine/Crc7.lean ====
section
/-! DEFINITION. The CRC7 long division and the CRC7 command (41_crc7.md). -/

namespace Sys2Proof.Machine

/-- The three values the long division works on (R120): they exist only while a command runs (R37). -/
structure Division where
  /-- The working register W. -/
  work : WorkReg
  /-- The shifted generator. -/
  pol : WorkReg
  /-- The bit-test position. -/
  bit : WorkReg
deriving DecidableEq, Repr

/-- W = v with the initial vector below it, the generator aligned to the top bit, the test at the top bit (R120). -/
def divisionStart (v : Payload) : Division where
  work := v ++ Config.crcIvec
  pol := Config.crcPoly <<< (Config.workWidth - 1 - Config.crcWidth)
  bit := 1#24 <<< (Config.workWidth - 1)

/-- The loop test: the bit under test is a message bit (R120). -/
def divisionTest (d : Division) : Bool := d.bit &&& (0x1FFFF#24 <<< Config.crcWidth) != 0

/-- One pass: where the bit under test is set the generator is XORed in; then both move down one place (R120). -/
def divisionPass (d : Division) : Division where
  work := if d.bit &&& d.work != 0 then d.work ^^^ d.pol else d.work
  pol := d.pol >>> 1
  bit := d.bit >>> 1

/-- The while loop, given `fuel` passes at most. -/
def divisionRun : Nat → Division → Division
  | 0, d => d
  | fuel + 1, d => if divisionTest d then divisionRun fuel (divisionPass d) else d

/-- crc7(v): the low 7 bits of the final working register (R120). The fuel is one pass per bit of the working register,
more than the 17 the loop takes (R121). -/
def crc7 (v : Payload) : Crc := (divisionRun Config.workWidth (divisionStart v)).work.extractLsb' 0 7

/-- CrcOk: the stored checksum equals the one computed over the full payload, valid bit included (R126). -/
def crcOk (sb : SubBlock) : Bool := (extract sb).chk == crc7 (extract sb).v17

/-- Crc7Op(sel) on the registers (R127). -/
def crc7Op (sel : Sel) (r : Regs) : Regs :=
  (r.setCrcRes (0#1 ++ crc7 (extract (r.image.sub sel)).v17)).complete false false false

/-- CRC7 (R127). -/
def execCrc7 (sel : Sel) (s : State) : Host.Outcome State Fault Refusal :=
  .next (s.withRegs (crc7Op sel s.regs))

end Sys2Proof.Machine
end

