-- ==== Sys2Proof/Machine/Payload.lean ====
section
/-! DEFINITION. Payload extraction and the DECODE command (42_decode.md). -/

namespace Sys2Proof.Machine

/-- DecodeSub(b): the raw value, or InvalidBit, or ChecksumMismatch; the valid bit is tested first (R140, R144). -/
def decodeSub (sb : SubBlock) : Except CmdError Half :=
  if (extract sb).valid = false then .error .invalidBit
  else if (extract sb).chk ≠ crc7 (extract sb).v17 then .error .checksumMismatch
  else .ok (extract sb).value

/-- Encode(V): the one correctly constructed sub-block of a value; a helper for tests and claims, not a command (R146). -/
def encodeSub (v : Half) : SubBlock where
  b0 := v.extractLsb' 0 8
  b1 := v.extractLsb' 8 8
  b2 := crc7 (1#1 ++ v) ++ 1#1

/-- The destination of DECODE: RAW_T for the temperature sub-block, RAW_H for humidity (R145). -/
def Regs.setRaw (r : Regs) (sel : Sel) (v : Half) : Regs :=
  match sel with
  | .temperature => r.setRawT v
  | .humidity => r.setRawH v

/-- DecodeOp(sel) on the registers (R145). -/
def decodeOp (sel : Sel) (r : Regs) : Regs :=
  match decodeSub (r.image.sub sel) with
  | .error e => r.raise e sel
  | .ok v => (r.setRaw sel v).complete false false false

/-- DECODE (R145). -/
def execDecode (sel : Sel) (s : State) : Host.Outcome State Fault Refusal :=
  .next (s.withRegs (decodeOp sel s.regs))

end Sys2Proof.Machine
end

