-- ==== Sys2Proof/Machine/Measure.lean ====
section
/-! DEFINITION. The MEASURE command (44_measure.md). -/

namespace Sys2Proof.Machine

/-- MeasureOp on the registers: temperature is decoded first, then humidity; an error of either writes STATUS alone;
else RAW_T, RAW_H, TEMP_C and, where it has a value, AH are written together, AH from the new values (R190 to R193). -/
def measureOp (r : Regs) : Regs :=
  match decodeSub (r.image.sub .temperature) with
  | .error e => r.raise e .temperature
  | .ok t =>
    match decodeSub (r.image.sub .humidity) with
    | .error e => r.raise e .humidity
    | .ok h => (((r.setRawT t).setRawH h).setTempC (celsiusWord t)).completeAh (ahCompute t h)

/-- MEASURE (R190). -/
def execMeasure (s : State) : Host.Outcome State Fault Refusal :=
  .next (s.withRegs (measureOp s.regs))

end Sys2Proof.Machine
end

