-- ==== Sys2Proof/Machine/Commands.lean ====
section
/-! DEFINITION. NOP, the illegal command, and Execute: the command a byte written to CMD runs (40_dispatch.md). -/

namespace Sys2Proof.Machine

/-- NopOp: no effect, STATUS kept (R104). -/
def nopOp (r : Regs) : Regs := r

/-- IllegalOp: IllegalCommand with ERR_SUB = 0, before any operand is read (R102, R302). -/
def illegalOp (r : Regs) : Regs := r.raise .illegalCommand .temperature

/-- Execute(c): the whole command of byte `c`, inside the transaction that writes CMD (R100, R101). -/
def execute (c : Byte) (r : Regs) : Regs :=
  match decodeCommand c with
  | .nop => nopOp r
  | .crc7 sel => crc7Op sel r
  | .decode sel => decodeOp sel r
  | .convert => convertOp r
  | .ahum => ahumOp r
  | .measure => measureOp r
  | .illegal => illegalOp r

/-- NOP (R104). -/
def execNop (s : State) : Host.Outcome State Fault Refusal :=
  .next (s.withRegs (nopOp s.regs))

/-- ILLEGAL (R102): the byte itself is not kept, whatever it is (R302; log 11). -/
def execIllegal (_c : Byte) (s : State) : Host.Outcome State Fault Refusal :=
  .next (s.withRegs (illegalOp s.regs))

end Sys2Proof.Machine
end

