-- ==== Sys2Proof/Machine/Bus.lean ====
section
/-! DEFINITION. The host's transactions WR and RD (20_memory.md section 3). -/

namespace Sys2Proof.Machine

/-- MemWrite(a, 1, v): a write of CMD executes the byte as a command; every other address stores (R61). -/
def Regs.write (r : Regs) (a : Addr) (v : Byte) : Regs :=
  if a = cmdAddr then execute v r else r.store a v

/-- WR (R61). -/
def execWr (a : Addr) (v : Byte) (s : State) : Host.Outcome State Fault Refusal :=
  .next (s.withRegs (s.regs.write a v))

/-- RD: the byte appears as the port's read data; no register changes (R52, R60). -/
def execRd (a : Addr) (s : State) : Host.Outcome State Fault Refusal :=
  .next (s.withRdata (s.regs.read a))

end Sys2Proof.Machine
end

