-- ==== Sys2Proof/Machine/Dispatch.lean ====
section
/-! DEFINITION. The dispatch of exec: one arm per constructor of Instr. -/

namespace Sys2Proof.Machine

-- CMD8: the commands (R100)
def exec (i : Instr) (s : State) : Host.Outcome State Fault Refusal :=
  match i with
  | .nop => Sys2Proof.Machine.execNop s
  | .crc7 sel => Sys2Proof.Machine.execCrc7 sel s
  | .decode sel => Sys2Proof.Machine.execDecode sel s
  | .convert => Sys2Proof.Machine.execConvert s
  | .ahum => Sys2Proof.Machine.execAhum s
  | .measure => Sys2Proof.Machine.execMeasure s
  | .illegal c => Sys2Proof.Machine.execIllegal c s
  -- BUS15: the host's transactions
  | .wr a v => Sys2Proof.Machine.execWr a v s
  | .rd a => Sys2Proof.Machine.execRd a s

end Sys2Proof.Machine
end

