-- ==== Sys2Proof/Machine/Step.lean ====
section
/-! DEFINITION. One step of the machine: the next host action. -/

namespace Sys2Proof.Machine

/-- One step (R50): a completed transaction is decoded and executed at its ack; a reset resets, and one that comes while
a transaction is pending leaves that transaction without effect; a protocol violation is a fault (R414); with no host
action the block does nothing. -/
def step (s : State) : Host.Outcome State Fault Refusal :=
  match s.inputs with
  | [] => .next s.idle
  | .transaction w :: rest => exec (decodeBus15 w) (s.beginTransaction rest)
  | .reset :: rest => .next (s.takeReset rest)
  | .resetDuring _ :: rest => .next (s.takeReset rest)
  | .violation v :: _ => .fault (.portProtocol v)

/-- `s` with the instruction of a table word as the host's next transaction (log 1, log 6): a BUS15 word is that
transaction, a CMD8 byte is the write of it to CMD. -/
def State.withFetchWord (s : State) (nbits w : Nat) : State := s.withTableWord nbits w

end Sys2Proof.Machine
end

