-- ==== Sys2Proof/Machine/Assembly.lean ====
section
/-! DEFINITION. The syntax of host programs (30_encoding.md R91): each statement stands for a fixed sequence of
transactions. -/

namespace Sys2Proof.Machine

/-- A statement of a host program (R91). -/
inductive HostStatement where
  | wr (a : Addr) (v : Byte)
  | rd (a : Addr)
  | rdExpect (a : Addr) (v : Byte)    -- RD a => v: the value is the listing's, not the block's
  | nop
  | crc7 (sel : Sel)
  | decode (sel : Sel)
  | convert
  | ahum
  | measure
  | load6 (b0 b1 b2 b3 b4 b5 : Byte)
  | wr16 (a : Addr) (v : Half)
  | rd16 (a : Addr)
  | rd32 (a : Addr)
deriving DecidableEq, Repr

/-- `WR a, v` (R91). -/
def wrWord (a : Addr) (v : Byte) : BusWord := busWord true a v

/-- `RD a` (R91). -/
def rdWord (a : Addr) : BusWord := busWord false a 0

/-- The BUS15 words a statement expands into, in order (R91).
DESIGN CHOICE (log 13): the address a + k of a multi-byte statement is taken in the six bits of an address. -/
def expand : HostStatement → List BusWord
  | .wr a v => [wrWord a v]
  | .rd a => [rdWord a]
  | .rdExpect a _ => [rdWord a]
  | .nop => [cmdWord 0x00]
  | .crc7 sel => [cmdWord (cmdByte 1 (selBit sel))]
  | .decode sel => [cmdWord (cmdByte 2 (selBit sel))]
  | .convert => [cmdWord 0x03]
  | .ahum => [cmdWord 0x04]
  | .measure => [cmdWord 0x05]
  | .load6 b0 b1 b2 b3 b4 b5 => [wrWord 0 b0, wrWord 1 b1, wrWord 2 b2, wrWord 3 b3, wrWord 4 b4, wrWord 5 b5]
  | .wr16 a v => [wrWord a (byteOf v 0), wrWord (a + 1) (byteOf v 1)]
  | .rd16 a => [rdWord a, rdWord (a + 1)]
  | .rd32 a => [rdWord a, rdWord (a + 1), rdWord (a + 2), rdWord (a + 3)]

/-- The value of an RD16 from its two bytes, little-endian (R91). -/
def assemble16 (b0 b1 : Byte) : Half := b1 ++ b0

/-- The value of an RD32 from its four bytes, little-endian (R91). -/
def assemble32 (b0 b1 b2 b3 : Byte) : Word := b3 ++ b2 ++ b1 ++ b0

/-- The machine with a host program as its next actions. -/
def State.withHostProgram (s : State) (p : List HostStatement) : State :=
  s.appendInputs ((p.flatMap expand).map .transaction)

end Sys2Proof.Machine
end

