-- ==== Sys2Proof/Machine/Port.lean ====
section
/-! DEFINITION. The host port at the level of its signals (20_memory.md section 1, 70_reset_and_hazards.md): a monitor that
reads the signals sampled at each rising edge of clk and says which host actions they make up. The step works on those
actions (R50); this file says when a waveform is a transaction, a reset, or a breach of the protocol. -/

namespace Sys2Proof.Machine

/-- The input signals sampled at one rising edge of clk (R52). -/
structure PortCycle where
  /-- rst_n: 0 is reset. -/
  rstN : Bool
  req : Bool
  we : Bool
  addr : Addr
  wdata : Byte
deriving DecidableEq, Repr

/-- The transaction the signals name (R52, R80, R90). -/
def PortCycle.word (c : PortCycle) : BusWord := busWord c.we c.addr c.wdata

/-- Where the port stands between two edges. -/
inductive PortPhase where
  | idle                                      -- no transaction; req may rise
  | pending (first : BusWord) (left : Nat)    -- a transaction waits, `left` more cycles before the one that acks it
  | acked                                     -- the last cycle acked: req must now be 0 (R53)
deriving DecidableEq, Repr

/-- One cycle of the port: the next phase, and the host action this cycle completes, if any. `wait` is CMD_WAIT of the
transaction that would start here, the cycles from its first one to the one that acks (R53; logs 7, 8, 9). -/
def portCycle (wait : Nat) (p : PortPhase) (c : PortCycle) : PortPhase × Option HostAction :=
  match p with
  | .idle =>
    if c.rstN = false then (.idle, some (if c.req then .resetDuring c.word else .reset))
    else if c.req = false then (.idle, none)
    else match wait with
      | 0 => (.acked, some (.transaction c.word))
      | n + 1 => (.pending c.word n, none)
  | .pending first left =>
    if c.rstN = false then (.idle, some (.resetDuring first))
    else if c.req = false then (.idle, some (.violation .requestDropped))
    else if c.word ≠ first then (.idle, some (.violation .signalsChanged))
    else match left with
      | 0 => (.acked, some (.transaction first))
      | n + 1 => (.pending first n, none)
  | .acked =>
    if c.rstN = false then (.idle, some .reset)
    else if c.req then (.idle, some (.violation .requestNotReleased))
    else (.idle, none)

/-- The host actions of a waveform, from phase `p`, `n` actions already counted. CMD_WAIT may differ from one transaction
to the next (R53). After a violation nothing more is read: no behaviour is defined past it (R414). -/
def portActions (wait : Nat → Nat) : Nat → PortPhase → List PortCycle → List HostAction
  | _, _, [] => []
  | n, p, c :: cs =>
    match portCycle (wait n) p c with
    | (p', none) => portActions wait n p' cs
    | (_, some (.violation v)) => [.violation v]
    | (p', some a) => a :: portActions wait (n + 1) p' cs

/-- The cycles in which a host holds the transaction `w` for `n + 1` edges, as R414 asks. -/
def portHold (n : Nat) (w : BusWord) : List PortCycle :=
  List.replicate (n + 1) { rstN := true, req := true, we := busWe w, addr := busAddr w, wdata := busData w }

/-- The machine with the actions of a waveform as its inputs, at this block's CMD_WAIT. -/
def State.withWaveform (s : State) (cs : List PortCycle) : State :=
  s.appendInputs (portActions Config.cmdWait 0 .idle cs)

end Sys2Proof.Machine
end

