-- ==== Sys2Proof/Safety.lean ====
section
/-! DEFINITION. What a sound state of the block is, and what a safe run is. -/

namespace Sys2Proof.Machine

/-- TEMP_C as a command writes it: 100 * x - 1748160 for a 16-bit x (R35, R162). -/
def isCelsiusWord (v : Word) : Bool :=
  decide (-1748160 ≤ v.toInt) && decide (v.toInt ≤ 4805340) && (v.toInt + 1748160) % 100 == 0

/-- A sound register file: STATUS holds one of its values (R31), so its bit 7 is 0 (R30); bit 7 of CRC_RES is 0 (R32);
TEMP_C is its reset value or one a command writes (R35); AH is saturated while AH_OVF is set (R28, R36). -/
def Regs.wf (r : Regs) : Bool :=
  statusValues.contains r.status
    && !r.crcRes.getLsbD 7
    && (r.tempC == 0 || isCelsiusWord r.tempC)
    && (!statusAhOvf r.status || r.ah == 0xFFFFFFFF)

/-- A sound state: its registers are sound, and read data is on the port only with an ack (R52). -/
def State.wf (s : State) : Bool := s.regs.wf && (s.port.ack || s.port.rdata == none)

/-- A host that keeps the port protocol: none of its actions is a violation (R414). -/
def obeysProtocol (as : List HostAction) : Bool :=
  as.all fun a => match a with
    | .violation _ => false
    | _ => true

/-- A safe state: sound, with a host that keeps the protocol. No step from it stops. -/
def State.safe (s : State) : Bool := s.wf && obeysProtocol s.inputs

end Sys2Proof.Machine
end

