-- ==== Sys2Proof/WellFormed.lean ====
section
/-! DEFINITION. Which instructions the encoding can write: the one check is that an illegal byte is illegal. -/

namespace Sys2Proof

/-- An instruction is well formed when some word of its format stands for it: `illegal c` needs a byte that is not
legal (R83, R102); every other constructor takes its operands at every value (R82, R90). -/
def Instr.wellFormed : Instr → Bool
  | .nop => true
  | .crc7 _ => true
  | .decode _ => true
  | .convert => true
  | .ahum => true
  | .measure => true
  | .illegal c => !cmdLegal c
  | .wr _ _ => true
  | .rd _ => true

end Sys2Proof
end

