-- ==== Sys2Proof/Certificates/Slice0/Obligations.lean ====
section
/-! DEFINITION. The statements for the provers, from the numbered rules of the spec, and the few words they are said in. -/

namespace Sys2Proof.Machine

/-! ## Words of the statements -/

/-- The state with the registers of `s` changed by `f`, nothing else: what a frame says. -/
def State.mapRegs (s : State) (f : Regs → Regs) : State := { s with regs := f s.regs }

/-- `i` runs command `k`: it is the instruction of `k` in CMD8, or the write of a byte of `k` to CMD (R100). -/
def runsCommand (i : Instr) (k : Command) : Prop :=
  (∃ c, i = commandInstr c k) ∨ (∃ c, i = .wr 0x08 c ∧ decodeCommand c = k)

/-- The polynomial over GF(2) whose coefficient of x^i is bit i of `w`. -/
noncomputable def bitsPoly {n : Nat} (w : BitVec n) : Polynomial (ZMod 2) :=
  ∑ i ∈ Finset.range n, if w.getLsbD i then Polynomial.X ^ i else 0

/-- P(x) = x^7 + x^3 + 1 (R6, R123). -/
noncomputable def crcGenerator : Polynomial (ZMod 2) := Polynomial.X ^ 7 + Polynomial.X ^ 3 + 1

/-- The last column of the table of R124: M_0 to M_16. -/
def crcBasis : List Crc :=
  [0x09, 0x12, 0x24, 0x48, 0x19, 0x32, 0x64, 0x41, 0x0B, 0x16, 0x2C, 0x58, 0x39, 0x72, 0x6D, 0x53, 0x2F]

/-- A sub-block with one of its 24 bits changed: bits 7:0 are byte 0, 15:8 byte 1, 23:16 byte 2. -/
def SubBlock.flip (sb : SubBlock) (i : Fin 24) : SubBlock :=
  if i.val < 8 then { sb with b0 := sb.b0 ^^^ (1#8 <<< i.val) }
  else if i.val < 16 then { sb with b1 := sb.b1 ^^^ (1#8 <<< (i.val - 8)) }
  else { sb with b2 := sb.b2 ^^^ (1#8 <<< (i.val - 16)) }

/-- A piece of what a host that keeps R414 drives, with no reset in it: a cycle with req = 0, or a word held until its ack
and one cycle with req = 0 after it. The other signals of a cycle with req = 0 are any. -/
inductive PortPiece where
  | low (c : PortCycle)
  | held (w : BusWord) (after : PortCycle)
deriving DecidableEq, Repr

/-- A cycle out of reset with req = 0, the other signals those of `c`. -/
def PortCycle.low (c : PortCycle) : PortCycle := { c with rstN := true, req := false }

/-- The waveform of a host that keeps R414, the n-th action next. -/
def heldWaveform (wait : Nat → Nat) : Nat → List PortPiece → List PortCycle
  | _, [] => []
  | n, .low c :: rest => c.low :: heldWaveform wait n rest
  | n, .held w c :: rest => portHold (wait n) w ++ c.low :: heldWaveform wait (n + 1) rest

/-- The words of a waveform, in order. -/
def heldWords : List PortPiece → List BusWord
  | [] => []
  | .low _ :: rest => heldWords rest
  | .held w _ :: rest => w :: heldWords rest

end Sys2Proof.Machine

open Sys2Proof Sys2Proof.Machine

/-! ## Encoding -/

/-- Decoding the encoding of a well-formed instruction gives it back and leaves the bytes after it alone
(R80, R82, R88, R89, R90; the two bytes of a BUS15 word are log 5). -/
def Obligations.DecodeOfEncodeIsIdentity : Prop :=
  ∀ (i : Instr) (rest : List Byte), i.wellFormed = true →
    decode (instrFormat i) (encode i ++ rest) = .ok (i, rest)

/-- Every CMD8 byte and every BUS15 word decodes to a well-formed instruction. The encoding of it is that byte, or that
word where it writes; a read word is the read of its address whatever its data, and its encoding has data 0x00
(R82, R89, R90; that a read word with other data is the same read is log 4, the two bytes of a word are log 5). -/
def Obligations.EncodeOfDecodeIsIdentity : Prop :=
  (∀ c : Byte, (decodeCmd8 c).wellFormed = true ∧ encode (decodeCmd8 c) = [c]) ∧
  (∀ w : BusWord, (decodeBus15 w).wellFormed = true ∧
    (w.getLsbD 14 = true →
      decodeBus15 w = .wr (w.extractLsb' 8 6) (w.extractLsb' 0 8) ∧ encode (decodeBus15 w) = busBytes w) ∧
    (w.getLsbD 14 = false →
      decodeBus15 w = .rd (w.extractLsb' 8 6) ∧ encode (decodeBus15 w) = busBytes (w &&& 0x3F00)))

/-- R83: which bytes are legal, that they are these eight, that the other 248 are illegal, and that an illegal byte runs
IllegalCommand. -/
def Obligations.LegalCommandBytes : Prop :=
  (∀ c : Byte, decodeCmd8 c ≠ .illegal c ↔
    (c.extractLsb' 4 4 = 0 ∧ (c.extractLsb' 0 3).toNat ≤ 5 ∧
      (c.getLsbD 3 = false ∨ c.extractLsb' 0 3 = 1 ∨ c.extractLsb' 0 3 = 2))) ∧
  (∀ c : Byte, decodeCmd8 c ≠ .illegal c ↔ c ∈ ([0x00, 0x01, 0x02, 0x03, 0x04, 0x05, 0x09, 0x0A] : List Byte)) ∧
  ((List.range 256).countP fun n => decide (decodeCmd8 (BitVec.ofNat 8 n) = .illegal (BitVec.ofNat 8 n))) = 248 ∧
  (∀ (c : Byte) (s : State), decodeCmd8 c = .illegal c →
    exec (.wr 0x08 c) s = .next (s.mapRegs fun r => { r with status := 0x06 }))

/-- Words written out from the encodings of R82, R90 and R91 decode to what they stand for. -/
def Obligations.WordsOfTheSpecDecode : Prop :=
  decodeCmd8 0b00000000#8 = .nop ∧ decodeCmd8 0b00000001#8 = .crc7 .temperature ∧
  decodeCmd8 0b00001001#8 = .crc7 .humidity ∧ decodeCmd8 0b00000010#8 = .decode .temperature ∧
  decodeCmd8 0b00001010#8 = .decode .humidity ∧ decodeCmd8 0b00000011#8 = .convert ∧
  decodeCmd8 0b00000100#8 = .ahum ∧ decodeCmd8 0b00000101#8 = .measure ∧
  decodeCmd8 0b00000110#8 = .illegal 0x06 ∧ decodeCmd8 0b00001011#8 = .illegal 0x0B ∧
  decodeCmd8 0b00010011#8 = .illegal 0x13 ∧
  decodeBus15 0b100100000000101#15 = .wr 0x08 0x05 ∧ decodeBus15 0b000100100000000#15 = .rd 0x09

/-- R91: the transactions each statement of a host program stands for. (The wrap of a + k in six bits is log 13.) -/
def Obligations.HostSyntaxExpansions : Prop :=
  (∀ (a : Addr) (v : Byte),
    expand (.wr a v) = [0x4000#15 ||| (a.setWidth 15 <<< 8) ||| v.setWidth 15] ∧
    expand (.rd a) = [a.setWidth 15 <<< 8] ∧ expand (.rdExpect a v) = expand (.rd a)) ∧
  (expand .nop = [0x4800] ∧ expand (.crc7 .temperature) = [0x4801] ∧ expand (.crc7 .humidity) = [0x4809] ∧
    expand (.decode .temperature) = [0x4802] ∧ expand (.decode .humidity) = [0x480A] ∧ expand .convert = [0x4803] ∧
    expand .ahum = [0x4804] ∧ expand .measure = [0x4805]) ∧
  (∀ b0 b1 b2 b3 b4 b5 : Byte, expand (.load6 b0 b1 b2 b3 b4 b5) =
    [0x4000#15 ||| b0.setWidth 15, 0x4100#15 ||| b1.setWidth 15, 0x4200#15 ||| b2.setWidth 15,
      0x4300#15 ||| b3.setWidth 15, 0x4400#15 ||| b4.setWidth 15, 0x4500#15 ||| b5.setWidth 15]) ∧
  (∀ (a : Addr) (v : Half), expand (.wr16 a v) =
    expand (.wr a (v.extractLsb' 0 8)) ++ expand (.wr (a + 1) (v.extractLsb' 8 8))) ∧
  (∀ a : Addr, expand (.rd16 a) = expand (.rd a) ++ expand (.rd (a + 1))) ∧
  (∀ a : Addr, expand (.rd32 a) =
    expand (.rd a) ++ expand (.rd (a + 1)) ++ expand (.rd (a + 2)) ++ expand (.rd (a + 3))) ∧
  (∀ v : Half, assemble16 (v.extractLsb' 0 8) (v.extractLsb' 8 8) = v) ∧
  (∀ v : Word, assemble32 (v.extractLsb' 0 8) (v.extractLsb' 8 8) (v.extractLsb' 16 8) (v.extractLsb' 24 8) = v)

/-! ## The step -/

/-- A step on a transaction is exec of the instruction the transaction word decodes to, with the transaction taken from the
list, ack raised and no read data yet; and where the transaction writes CMD it is exec of the command (R50, R53, R100;
the list and the port outputs are the model's own, logs 1 and 2). -/
def Obligations.StepRunsDecodedInstruction : Prop :=
  (∀ (s : State) (w : BusWord) (rest : List HostAction), s.inputs = .transaction w :: rest →
    step s = exec (decodeBus15 w) { regs := s.regs, port := { ack := true, rdata := none }, inputs := rest }) ∧
  (∀ (s : State) (c : Byte) (rest : List HostAction),
    s.inputs = .transaction (0x4800#15 ||| c.setWidth 15) :: rest →
    step s = exec (decodeCmd8 c) { regs := s.regs, port := { ack := true, rdata := none }, inputs := rest })

/-- R100: a write of byte c to CMD runs exactly the command of c. -/
def Obligations.CommandWriteRunsCommand : Prop :=
  ∀ (c : Byte) (s : State), exec (.wr 0x08 c) s = exec (decodeCmd8 c) s

/-- R400, R402, R403: reset, also while a transaction is pending, zeroes every register whatever the state was (at power-up
too), acks nothing, and the pending transaction has no effect. -/
def Obligations.ResetZeroesEveryRegister : Prop :=
  (∀ (s : State) (w : BusWord) (rest : List HostAction),
    s.inputs = .reset :: rest ∨ s.inputs = .resetDuring w :: rest →
    step s = .next
      { regs :=
          { image := ⟨0, 0, 0, 0, 0, 0⟩, status := 0, crcRes := 0, rawT := 0, rawH := 0, tempC := 0, ah := 0 }
        port := { ack := false, rdata := none }
        inputs := rest }) ∧
  step (State.powerUp.pushInput .reset) = .next State.reset

/-- R401: after reset every read returns 0x00. -/
def Obligations.ResetReadsAsZero : Prop :=
  ∀ a : Addr, exec (.rd a) State.reset =
    .next { State.reset with port := { ack := false, rdata := some 0x00 } }

/-- R414, R305: a step faults exactly on a protocol violation, under its name, and no step is ever refused. -/
def Obligations.StepStopsOnlyOnViolation : Prop :=
  ∀ s : State,
    (∀ f, step s = .fault f ↔ ∃ v rest, s.inputs = .violation v :: rest ∧ f = .portProtocol v) ∧
    (∀ r, step s ≠ .refused r)

/-- The model's choice (log 1) on R50, by which the block has no step of its own: with no host action the registers stay. -/
def Obligations.IdleStepKeepsRegisters : Prop :=
  ∀ s : State, s.inputs = [] → step s = .next { s with port := { ack := false, rdata := none } }

/-- R305, R53: every instruction completes from every state, and leaves the actions to come and ack alone. -/
def Obligations.EveryInstructionCompletes : Prop :=
  ∀ (i : Instr) (s : State), ∃ t, exec i s = .next t ∧ t.inputs = s.inputs ∧ t.port.ack = s.port.ack

/-! ## The commands -/

/-- R104: NOP, and the write of its byte 0x00 to CMD, changes nothing, from any state; and NOP is the only command that does
not write STATUS: any other one runs from a state whose STATUS is 0xFF, which no command writes, and replaces it. -/
def Obligations.NopHasNoEffect : Prop :=
  encode .nop = [0x00] ∧ (∀ s : State, exec .nop s = .next s ∧ exec (.wr 0x08 0x00) s = .next s) ∧
  (∀ (i : Instr) (s : State), instrFormat i = .cmd8 → i ≠ .nop → s.regs.status = 0xFF →
    ∃ t, exec i s = .next t ∧ t.regs.status ≠ s.regs.status)

/-- R102: an illegal command writes 0x06 to STATUS and nothing else. -/
def Obligations.IllegalWritesOnlyStatus : Prop :=
  ∀ (c : Byte) (s : State), exec (.illegal c) s = .next (s.mapRegs fun r => { r with status := 0x06 })

/-- R127: CRC7 writes the CRC of the selected payload to CRC_RES and 0x01 to STATUS, and nothing else; of the third byte
only bit 0 counts. -/
def Obligations.Crc7WritesCrcRes : Prop :=
  ∀ s : State,
    exec (.crc7 .temperature) s = .next (s.mapRegs fun r =>
      { r with
        crcRes := 0#1 ++ crc7 (r.image.in2.extractLsb' 0 1 ++ r.image.in1 ++ r.image.in0)
        status := 0x01 }) ∧
    exec (.crc7 .humidity) s = .next (s.mapRegs fun r =>
      { r with
        crcRes := 0#1 ++ crc7 (r.image.in5.extractLsb' 0 1 ++ r.image.in4 ++ r.image.in3)
        status := 0x01 })

/-- R86: where each bit of a sub-block goes. -/
def Obligations.SubBlockBitLayout : Prop :=
  ∀ sb : SubBlock,
    (∀ i, i < 8 → (extract sb).value.getLsbD i = sb.b0.getLsbD i ∧
      (extract sb).value.getLsbD (8 + i) = sb.b1.getLsbD i) ∧
    (∀ i, i < 7 → (extract sb).chk.getLsbD i = sb.b2.getLsbD (i + 1)) ∧
    (extract sb).valid = sb.b2.getLsbD 0 ∧ (extract sb).v17.getLsbD 16 = sb.b2.getLsbD 0 ∧
    (extract sb).v17.extractLsb' 0 16 = (extract sb).value

/-- R141 to R144: the outcome of DecodeSub, by the valid bit and then the checksum. -/
def Obligations.DecodeSubOutcome : Prop :=
  ∀ sb : SubBlock,
    (sb.b2.getLsbD 0 = false → decodeSub sb = .error .invalidBit) ∧
    (sb.b2.getLsbD 0 = true →
      (decodeSub sb = .error .checksumMismatch ↔ sb.b2.extractLsb' 1 7 ≠ crc7 (1#1 ++ (sb.b1 ++ sb.b0))) ∧
      (sb.b2.extractLsb' 1 7 = crc7 (1#1 ++ (sb.b1 ++ sb.b0)) → decodeSub sb = .ok (sb.b1 ++ sb.b0)))

/-- R145: on success DECODE writes the value to its destination and 0x01 to STATUS, and nothing else. -/
def Obligations.DecodeWritesRawOnSuccess : Prop :=
  ∀ (s : State) (v : Half),
    (decodeSub ⟨s.regs.image.in0, s.regs.image.in1, s.regs.image.in2⟩ = .ok v →
      exec (.decode .temperature) s = .next (s.mapRegs fun r => { r with rawT := v, status := 0x01 })) ∧
    (decodeSub ⟨s.regs.image.in3, s.regs.image.in4, s.regs.image.in5⟩ = .ok v →
      exec (.decode .humidity) s = .next (s.mapRegs fun r => { r with rawH := v, status := 0x01 }))

/-- R145: on an error DECODE writes only STATUS: 0x02 or 0x0A for InvalidBit, 0x04 or 0x0C for ChecksumMismatch. -/
def Obligations.DecodeErrorWritesOnlyStatus : Prop :=
  ∀ s : State,
    (s.regs.image.in2.getLsbD 0 = false →
      exec (.decode .temperature) s = .next (s.mapRegs fun r => { r with status := 0x02 })) ∧
    (s.regs.image.in5.getLsbD 0 = false →
      exec (.decode .humidity) s = .next (s.mapRegs fun r => { r with status := 0x0A })) ∧
    (s.regs.image.in2.getLsbD 0 = true →
      s.regs.image.in2.extractLsb' 1 7 ≠ crc7 (1#1 ++ (s.regs.image.in1 ++ s.regs.image.in0)) →
      exec (.decode .temperature) s = .next (s.mapRegs fun r => { r with status := 0x04 })) ∧
    (s.regs.image.in5.getLsbD 0 = true →
      s.regs.image.in5.extractLsb' 1 7 ≠ crc7 (1#1 ++ (s.regs.image.in4 ++ s.regs.image.in3)) →
      exec (.decode .humidity) s = .next (s.mapRegs fun r => { r with status := 0x0C }))

/-- R161, R165: CONVERT writes TEMP_C and 0x01 to STATUS and nothing else; TEMP_C is 100 * RAW_T - 1748160 exactly, which
in units of 1/6400 °C is RAW_T / 64 - 273.15, and TEMP_C / 64 is that in hundredths of a degree. -/
def Obligations.ConvertIsExactCelsius : Prop :=
  ∀ s : State, ∃ c : Word,
    exec .convert s = .next (s.mapRegs fun r => { r with tempC := c, status := 0x01 }) ∧
    c.toInt = 100 * (s.regs.rawT.toNat : Int) - 1748160 ∧
    (c.toInt : ℚ) / 6400 = (s.regs.rawT.toNat : ℚ) / 64 - 27315 / 100 ∧
    (c.toInt : ℚ) / 64 = 100 * ((s.regs.rawT.toNat : ℚ) / 64 - 27315 / 100)

/-- R162: the range, the sign, the step and the 24-bit fit of the TEMP_C that CONVERT writes. -/
def Obligations.ConvertRangeAndSign : Prop :=
  (∀ s t : State, exec .convert s = .next t →
    -1748160 ≤ t.regs.tempC.toInt ∧ t.regs.tempC.toInt ≤ 4805340 ∧
    (t.regs.tempC.toInt < 0 ↔ s.regs.rawT.toNat ≤ 17481) ∧
    (0 < t.regs.tempC.toInt ↔ 17482 ≤ s.regs.rawT.toNat) ∧
    (t.regs.tempC.extractLsb' 0 24).signExtend 32 = t.regs.tempC ∧
    (s.regs.rawT = 0#16 → t.regs.tempC = 0xFFE55340) ∧ (s.regs.rawT = 65535 → t.regs.tempC = 0x004952DC) ∧
    (s.regs.rawT = 17481 → t.regs.tempC.toInt = -60) ∧ (s.regs.rawT = 17482 → t.regs.tempC.toInt = 40)) ∧
  (∀ s s' t t' : State, exec .convert s = .next t → exec .convert s' = .next t' →
    s'.regs.rawT.toNat = s.regs.rawT.toNat + 1 → t'.regs.tempC.toInt = t.regs.tempC.toInt + 100)

/-- R160, R163: RAW_T read as Q10.6 and RAW_H read as Q7.9 are RAW_T / 64 K and RAW_H / 512 %, with their ranges. -/
def Obligations.RawRegistersAreFixedPoint : Prop :=
  (∀ v : Half, kelvin v = (v.toNat : ℚ) / 64 ∧ relativeHumidity v = (v.toNat : ℚ) / 512) ∧
  (∀ v : Half, 0 ≤ kelvin v ∧ kelvin v ≤ 1023984375 / 1000000 ∧
    0 ≤ relativeHumidity v ∧ relativeHumidity v ≤ 127998046875 / 1000000000)

/-- R172, R173, R174, R176: AHUM writes AH where there is a value, and STATUS, and nothing else. -/
def Obligations.AhumEffect : Prop :=
  ∀ s : State,
    (s.regs.rawT = 0#16 → exec .ahum s = .next (s.mapRegs fun r => { r with status := 0x41 })) ∧
    (s.regs.rawT ≠ 0#16 → s.regs.rawH = 0#16 →
      exec .ahum s = .next (s.mapRegs fun r => { r with ah := 0x00000000, status := 0x11 })) ∧
    (s.regs.rawT ≠ 0#16 → s.regs.rawH ≠ 0#16 → (Config.ahApprox s.regs.rawT s.regs.rawH).2 = true →
      exec .ahum s = .next (s.mapRegs fun r => { r with ah := 0xFFFFFFFF, status := 0x21 })) ∧
    (s.regs.rawT ≠ 0#16 → s.regs.rawH ≠ 0#16 → (Config.ahApprox s.regs.rawT s.regs.rawH).2 = false →
      exec .ahum s = .next (s.mapRegs fun r =>
        { r with ah := (Config.ahApprox r.rawT r.rawH).1, status := 0x11 }))

/-- R175, R176: AHUM at RAW_T ≥ 1 and RAW_H ≥ 1, whatever conforming unit the block has: below the range limit AH is valid
and within AH_TOL of the exact value, above it AH saturates, and in the band it does one of the two. -/
def Obligations.AhumWithinTolerance : Prop :=
  ∀ s : State, s.regs.rawT ≠ 0#16 → s.regs.rawH ≠ 0#16 →
    let x := ahExact s.regs.rawT s.regs.rawH
    let near := ∃ q : Word, |(q.toNat : ℝ) / 65536 - x| ≤ Config.ahTol ∧
      exec .ahum s = .next (s.mapRegs fun r => { r with ah := q, status := 0x11 })
    let saturated := exec .ahum s = .next (s.mapRegs fun r => { r with ah := 0xFFFFFFFF, status := 0x21 })
    (x ≤ ahMax - Config.ahTol → near) ∧ (ahMax + Config.ahTol < x → saturated) ∧ (near ∨ saturated)

/-- R177: for 1 ≤ RAW_T ≤ 1897 and RAW_H ≥ 1 AHUM always saturates. -/
def Obligations.AhumSaturatesBelowPole : Prop :=
  ∀ s : State, 1 ≤ s.regs.rawT.toNat → s.regs.rawT.toNat ≤ 1897 → 1 ≤ s.regs.rawH.toNat →
    exec .ahum s = .next (s.mapRegs fun r => { r with ah := 0xFFFFFFFF, status := 0x21 })

/-- R175: at the two raw temperatures nearest to 25.0 °C and 50.0 %, AHUM gives a valid AH in [11.0, 12.0] g/m^3. -/
def Obligations.AhumRoomTemperatureBound : Prop :=
  ∀ s : State, (s.regs.rawT = 19081 ∨ s.regs.rawT = 19082) → s.regs.rawH = 25600 →
    ∃ q : Word, 11 ≤ absoluteHumidity q ∧ absoluteHumidity q ≤ 12 ∧
      exec .ahum s = .next (s.mapRegs fun r => { r with ah := q, status := 0x11 })

/-- R177: above the pole (RAW_T >= 1898) the last RAW_T in range is 37991 for RAW_H = 65535 and 39380 for RAW_H = 51200
(100 %): every RAW_T from 1898 to it gives a valid AH, and every later one saturates. -/
def Obligations.AhumRangeEdge : Prop :=
  (∀ s : State, 1898 ≤ s.regs.rawT.toNat →
    s.regs.rawT.toNat ≤ 37991 ∧ s.regs.rawH = 65535 ∨ s.regs.rawT.toNat ≤ 39380 ∧ s.regs.rawH = 51200 →
    ∃ q : Word, exec .ahum s = .next (s.mapRegs fun r => { r with ah := q, status := 0x11 })) ∧
  (∀ s : State,
    37992 ≤ s.regs.rawT.toNat ∧ s.regs.rawH = 65535 ∨ 39381 ≤ s.regs.rawT.toNat ∧ s.regs.rawH = 51200 →
    exec .ahum s = .next (s.mapRegs fun r => { r with ah := 0xFFFFFFFF, status := 0x21 }))

/-- R190, R192, R193: MEASURE with both sub-blocks correct writes RAW_T, RAW_H, TEMP_C, STATUS and, unless t = 0, AH, all
from the newly decoded values, and nothing else. -/
def Obligations.MeasureWritesAllResults : Prop :=
  ∀ (s : State) (t h : Half),
    decodeSub ⟨s.regs.image.in0, s.regs.image.in1, s.regs.image.in2⟩ = .ok t →
    decodeSub ⟨s.regs.image.in3, s.regs.image.in4, s.regs.image.in5⟩ = .ok h →
    exec .measure s = .next (s.mapRegs fun r =>
      { r with
        rawT := t
        rawH := h
        tempC := BitVec.ofInt 32 (100 * (t.toNat : Int) - 1748160)
        ah := if t = 0#16 then r.ah else if h = 0#16 then 0 else
          if (Config.ahApprox t h).2 then 0xFFFFFFFF else (Config.ahApprox t h).1
        status := if t = 0#16 then 0x41 else if h = 0#16 then 0x11 else
          if (Config.ahApprox t h).2 then 0x21 else 0x11 })

/-- R191: the temperature sub-block is checked completely before the humidity sub-block, and an error writes STATUS
alone. -/
def Obligations.MeasureChecksTemperatureFirst : Prop :=
  ∀ s : State,
    let tb : SubBlock := ⟨s.regs.image.in0, s.regs.image.in1, s.regs.image.in2⟩
    let hb : SubBlock := ⟨s.regs.image.in3, s.regs.image.in4, s.regs.image.in5⟩
    (decodeSub tb = .error .invalidBit → exec .measure s = .next (s.mapRegs fun r => { r with status := 0x02 })) ∧
    (decodeSub tb = .error .checksumMismatch →
      exec .measure s = .next (s.mapRegs fun r => { r with status := 0x04 })) ∧
    (∀ t, decodeSub tb = .ok t → decodeSub hb = .error .invalidBit →
      exec .measure s = .next (s.mapRegs fun r => { r with status := 0x0A })) ∧
    (∀ t, decodeSub tb = .ok t → decodeSub hb = .error .checksumMismatch →
      exec .measure s = .next (s.mapRegs fun r => { r with status := 0x0C }))

/-- R193: a MEASURE that completes does not depend on the old RAW_T, RAW_H, TEMP_C and STATUS, nor, unless t = 0, on the
old AH. -/
def Obligations.MeasureIgnoresOldResults : Prop :=
  ∀ (s : State) (t h x y : Half) (c a : Word) (v : Byte),
    decodeSub ⟨s.regs.image.in0, s.regs.image.in1, s.regs.image.in2⟩ = .ok t →
    decodeSub ⟨s.regs.image.in3, s.regs.image.in4, s.regs.image.in5⟩ = .ok h →
    (t ≠ 0#16 ∨ a = s.regs.ah) →
    exec .measure (s.mapRegs fun r => { r with rawT := x, rawH := y, tempC := c, ah := a, status := v }) =
      exec .measure s

/-- R145, R165, R176, R190: where both sub-blocks are correct, MEASURE does what DECODE T, DECODE H, CONVERT and AHUM do one
after the other. -/
def Obligations.MeasureIsDecodeConvertAhum : Prop :=
  ∀ (s s₁ s₂ s₃ : State) (t h : Half),
    decodeSub ⟨s.regs.image.in0, s.regs.image.in1, s.regs.image.in2⟩ = .ok t →
    decodeSub ⟨s.regs.image.in3, s.regs.image.in4, s.regs.image.in5⟩ = .ok h →
    exec (.decode .temperature) s = .next s₁ → exec (.decode .humidity) s₁ = .next s₂ →
    exec .convert s₂ = .next s₃ → exec .measure s = exec .ahum s₃

/-- R194: what a host reads as PhysicalMeasurement after a MEASURE that completed. -/
def Obligations.MeasureGivesPhysicalMeasurement : Prop :=
  ∀ (s u : State) (t h : Half),
    decodeSub ⟨s.regs.image.in0, s.regs.image.in1, s.regs.image.in2⟩ = .ok t →
    decodeSub ⟨s.regs.image.in3, s.regs.image.in4, s.regs.image.in5⟩ = .ok h →
    exec .measure s = .next u →
    u.regs.physical = ⟨(t.toNat : ℚ) / 64 - 27315 / 100, (h.toNat : ℚ) / 512⟩

/-! ## STATUS and errors -/

/-- R303: what raise writes, for each error and sub-block, and that it writes STATUS alone. -/
def Obligations.RaiseWritesStatusAlone : Prop :=
  (∀ (r : Regs) (e : CmdError) (sub : Sel), r.raise e sub =
    { r with status := 0#1 ++ 0#1 ++ 0#1 ++ 0#1 ++ errorSub sub ++ errorCode e ++ 0#1 }) ∧
  errorCode .invalidBit = 1 ∧ errorCode .checksumMismatch = 2 ∧ errorCode .illegalCommand = 3 ∧
  (∀ r : Regs, (r.raise .invalidBit .temperature).status = 0x02 ∧ (r.raise .invalidBit .humidity).status = 0x0A ∧
    (r.raise .checksumMismatch .temperature).status = 0x04 ∧ (r.raise .checksumMismatch .humidity).status = 0x0C ∧
    (r.raise .illegalCommand .temperature).status = 0x06) ∧
  (∀ (r : Regs) (e : CmdError) (sub : Sel), statusOk (r.raise e sub).status = false ∧
    statusErr (r.raise e sub).status = errorCode e ∧ statusErrSub (r.raise e sub).status = (sub == .humidity) ∧
    statusAhValid (r.raise e sub).status = false ∧ statusAhOvf (r.raise e sub).status = false ∧
    statusAhDom (r.raise e sub).status = false)

/-- R303, R308: after a CMD8 command that ends with OK = 0 the state is the one before it with STATUS replaced by the value
of an error. -/
def Obligations.FailedCommandIsPrecise : Prop :=
  ∀ (i : Instr) (s t : State), instrFormat i = .cmd8 → i ≠ .nop → exec i s = .next t →
    statusOk t.regs.status = false →
    t.regs.status ∈ ([0x02, 0x0A, 0x04, 0x0C, 0x06] : List Byte) ∧
    t = s.mapRegs fun r => { r with status := t.regs.status }

/-- R31, R309: every command but NOP overwrites all of STATUS: the outcome does not depend on the old value, and the new
one is one of the nine a command leaves. -/
def Obligations.CommandsOverwriteStatus : Prop :=
  ∀ (i : Instr) (s : State) (v : Byte), instrFormat i = .cmd8 → i ≠ .nop →
    exec i (s.mapRegs fun r => { r with status := v }) = exec i s ∧
    ∀ t, exec i s = .next t →
      t.regs.status ∈ ([0x01, 0x11, 0x21, 0x41, 0x02, 0x0A, 0x04, 0x0C, 0x06] : List Byte)

/-- R24 to R30: the meaning of each field of STATUS after a command other than NOP. -/
def Obligations.StatusFieldMeanings : Prop :=
  ∀ (i : Instr) (s t : State), instrFormat i = .cmd8 → i ≠ .nop → exec i s = .next t →
    (statusOk t.regs.status = true ↔ statusErr t.regs.status = 0) ∧
    (statusErr t.regs.status = 3 ↔ ∃ c, i = .illegal c) ∧
    (statusErr t.regs.status = 1 ∨ statusErr t.regs.status = 2 → (∃ sel, i = .decode sel) ∨ i = .measure) ∧
    (statusErrSub t.regs.status = true → statusErr t.regs.status = 1 ∨ statusErr t.regs.status = 2) ∧
    (statusAhValid t.regs.status = true ∨ statusAhOvf t.regs.status = true ∨ statusAhDom t.regs.status = true →
      statusOk t.regs.status = true ∧ (i = .ahum ∨ i = .measure)) ∧
    (statusAhOvf t.regs.status = true → statusAhValid t.regs.status = false ∧ t.regs.ah = 0xFFFFFFFF) ∧
    (statusAhDom t.regs.status = true → statusAhValid t.regs.status = false ∧ statusAhOvf t.regs.status = false ∧
      t.regs.rawT = 0#16 ∧ t.regs.ah = s.regs.ah) ∧
    (i = .ahum → t.regs.rawT = 0#16 → statusAhDom t.regs.status = true) ∧
    t.regs.status.getLsbD 7 = false

/-- R22, R32 to R36, R62: which instructions can change each register. -/
def Obligations.WritersOfEachRegister : Prop :=
  ∀ (i : Instr) (s t : State), exec i s = .next t →
    (t.regs.image ≠ s.regs.image → ∃ a v, i = .wr a v ∧ a.toNat ≤ 5) ∧
    (t.regs.status ≠ s.regs.status → ∃ k, k ≠ .nop ∧ runsCommand i k) ∧
    (t.regs.crcRes ≠ s.regs.crcRes → ∃ sel, runsCommand i (.crc7 sel)) ∧
    (t.regs.rawT ≠ s.regs.rawT → (∃ v, i = .wr 0x10 v ∨ i = .wr 0x11 v) ∨
      ((runsCommand i (.decode .temperature) ∨ runsCommand i .measure) ∧ statusOk t.regs.status = true)) ∧
    (t.regs.rawH ≠ s.regs.rawH → (∃ v, i = .wr 0x12 v ∨ i = .wr 0x13 v) ∨
      ((runsCommand i (.decode .humidity) ∨ runsCommand i .measure) ∧ statusOk t.regs.status = true)) ∧
    (t.regs.tempC ≠ s.regs.tempC → runsCommand i .convert ∨ runsCommand i .measure) ∧
    (t.regs.ah ≠ s.regs.ah → runsCommand i .ahum ∨ runsCommand i .measure) ∧
    (t.port ≠ s.port → ∃ a, i = .rd a)

/-! ## The register space -/

/-- R60: the byte a read returns, by address; a read changes nothing but the port's read data
(kept in the state: log 2). -/
def Obligations.ReadReturnsByte : Prop :=
  ∀ (a : Addr) (s : State),
    let n := a.toNat
    let r := s.regs
    let byte : Byte :=
      if n = 0 then r.image.in0 else if n = 1 then r.image.in1 else if n = 2 then r.image.in2
      else if n = 3 then r.image.in3 else if n = 4 then r.image.in4 else if n = 5 then r.image.in5
      else if n = 0x09 then r.status
      else if n = 0x0A then 0#1 ++ r.crcRes.extractLsb' 0 7
      else if n = 0x10 then r.rawT.extractLsb' 0 8 else if n = 0x11 then r.rawT.extractLsb' 8 8
      else if n = 0x12 then r.rawH.extractLsb' 0 8 else if n = 0x13 then r.rawH.extractLsb' 8 8
      else if 0x14 ≤ n ∧ n ≤ 0x17 then r.tempC.extractLsb' (8 * (n - 0x14)) 8
      else if 0x18 ≤ n ∧ n ≤ 0x1B then r.ah.extractLsb' (8 * (n - 0x18)) 8
      else 0x00
    exec (.rd a) s = .next { s with port := { s.port with rdata := some byte } }

/-- R61: the writable registers take the written byte, and nothing else changes. -/
def Obligations.WriteStoresByte : Prop :=
  ∀ (s : State) (v : Byte),
    exec (.wr 0x00 v) s = .next (s.mapRegs fun r => { r with image := { r.image with in0 := v } }) ∧
    exec (.wr 0x01 v) s = .next (s.mapRegs fun r => { r with image := { r.image with in1 := v } }) ∧
    exec (.wr 0x02 v) s = .next (s.mapRegs fun r => { r with image := { r.image with in2 := v } }) ∧
    exec (.wr 0x03 v) s = .next (s.mapRegs fun r => { r with image := { r.image with in3 := v } }) ∧
    exec (.wr 0x04 v) s = .next (s.mapRegs fun r => { r with image := { r.image with in4 := v } }) ∧
    exec (.wr 0x05 v) s = .next (s.mapRegs fun r => { r with image := { r.image with in5 := v } }) ∧
    exec (.wr 0x10 v) s = .next (s.mapRegs fun r => { r with rawT := r.rawT.extractLsb' 8 8 ++ v }) ∧
    exec (.wr 0x11 v) s = .next (s.mapRegs fun r => { r with rawT := v ++ r.rawT.extractLsb' 0 8 }) ∧
    exec (.wr 0x12 v) s = .next (s.mapRegs fun r => { r with rawH := r.rawH.extractLsb' 8 8 ++ v }) ∧
    exec (.wr 0x13 v) s = .next (s.mapRegs fun r => { r with rawH := v ++ r.rawH.extractLsb' 0 8 })

/-- R59, R61: a write to any address but CMD completes; the written byte reads back where the address is IN0..IN5, RAW_T or
RAW_H; and every other address reads as before. -/
def Obligations.WriteChangesOnlyItsByte : Prop :=
  ∀ (a : Addr) (v : Byte) (s : State), a ≠ 0x08 →
    ∃ t, exec (.wr a v) s = .next t ∧ t.port = s.port ∧ t.inputs = s.inputs ∧
      (a.toNat ≤ 5 ∨ 0x10 ≤ a.toNat ∧ a.toNat ≤ 0x13 → t.regs.read a = v) ∧
      (∀ b : Addr, b ≠ a → t.regs.read b = s.regs.read b)

/-- R65, R66: a byte written to IN0..IN5, RAW_T or RAW_H is what a read of it in the next transaction returns
(the list of actions and the port outputs are logs 1 and 2). -/
def Obligations.NextReadSeesWrite : Prop :=
  ∀ (s : State) (a : Addr) (v : Byte) (rest : List HostAction),
    (a.toNat ≤ 5 ∨ 0x10 ≤ a.toNat ∧ a.toNat ≤ 0x13) →
    s.inputs = .transaction (busWord true a v) :: .transaction (busWord false a 0) :: rest →
    ∃ t u, step s = .next t ∧ step t = .next u ∧ u.regs = t.regs ∧ u.port = ⟨true, some v⟩ ∧ u.inputs = rest

/-- R56: a reserved address reads 0x00, and a write to it changes nothing. -/
def Obligations.ReservedAddressesInert : Prop :=
  ∀ (a : Addr) (v : Byte) (s : State),
    (a.toNat = 0x06 ∨ a.toNat = 0x07 ∨ 0x0B ≤ a.toNat ∧ a.toNat ≤ 0x0F ∨ 0x1C ≤ a.toNat) →
    exec (.rd a) s = .next { s with port := { s.port with rdata := some 0x00 } } ∧
    exec (.wr a v) s = .next s

/-- R62: a host write to STATUS, CRC_RES, TEMP_C or AH is ignored, and only commands write these registers. -/
def Obligations.ReadOnlyRegistersIgnoreWrites : Prop :=
  (∀ (a : Addr) (v : Byte) (s : State),
    (a.toNat = 0x09 ∨ a.toNat = 0x0A ∨ 0x14 ≤ a.toNat ∧ a.toNat ≤ 0x1B) → exec (.wr a v) s = .next s) ∧
  (∀ (i : Instr) (s t : State), exec i s = .next t →
    (t.regs.status ≠ s.regs.status ∨ t.regs.crcRes ≠ s.regs.crcRes ∨ t.regs.tempC ≠ s.regs.tempC ∨
      t.regs.ah ≠ s.regs.ah) → ∃ k, runsCommand i k)

/-- R59: every instruction repeated at once leaves the state of its first run, commands, writes and reads alike. -/
def Obligations.RepeatedInstructionIsIdempotent : Prop :=
  ∀ (i : Instr) (s t : State), exec i s = .next t → exec i t = .next t

/-! ## Invariants -/

/-- The reset state is sound and safe (R20, R400). -/
def Obligations.ResetIsSound : Prop :=
  State.reset.wf = true ∧ State.reset.safe = true

/-- R30, R31, R32, R35, R28: every step from a sound state leaves a sound state: STATUS holds one of its ten values, bit 7 of
CRC_RES is 0, TEMP_C is 0 or a converted temperature, AH is saturated while AH_OVF is set (and, by log 2, read data comes
only with an ack). -/
def Obligations.StepKeepsSound : Prop :=
  ∀ s t : State, s.wf = true → step s = .next t → t.wf = true

/-- R305, R414: a run with a host that keeps the port protocol never stops, and every state of it is safe. -/
def Obligations.SafeRunNeverStops : Prop :=
  ∀ (n : Nat) (s : State), s.safe = true →
    ∃ t : State, Host.Core.run Sys2Proof.core n s = .next t ∧ t.safe = true

/-! ## The CRC -/

/-- R121: the loop runs exactly 17 passes; in pass k the test position is 1 << (23 - k) and the generator 0x89 << (16 - k),
whose top bit is the bit under test; it ends at 1 << 6. -/
def Obligations.Crc7LoopRunsSeventeenPasses : Prop :=
  ∀ v : Payload,
    (∀ k, k ≤ 16 →
      let d := divisionPass^[k] (divisionStart v)
      divisionTest d = true ∧ d.bit = 1#24 <<< (23 - k) ∧ d.pol = 0x89#24 <<< (16 - k) ∧
      d.pol.getLsbD (23 - k) = true ∧ (∀ j, 23 - k < j → d.pol.getLsbD j = false)) ∧
    divisionTest (divisionPass^[17] (divisionStart v)) = false ∧
    (divisionPass^[17] (divisionStart v)).bit = 1#24 <<< 6 ∧
    crc7 v = (divisionPass^[17] (divisionStart v)).work.extractLsb' 0 7

/-- R122: pass k clears bit 23 - k of W and changes no bit above it, so at the end W[23:7] = 0 and the low 7 bits are all of
W. -/
def Obligations.Crc7WorkingRegisterClears : Prop :=
  ∀ v : Payload,
    (∀ k, k ≤ 16 →
      let before := (divisionPass^[k] (divisionStart v)).work
      let after := (divisionPass^[k + 1] (divisionStart v)).work
      after.getLsbD (23 - k) = false ∧ (∀ j, 23 - k < j → after.getLsbD j = before.getLsbD j)) ∧
    (divisionPass^[17] (divisionStart v)).work.extractLsb' 7 17 = 0 ∧
    (divisionPass^[17] (divisionStart v)).work = 0#17 ++ crc7 v

/-- R123: crc7(v) is the remainder of v(x) x^7 + (x^6 + ... + 1) on division by P(x) = x^7 + x^3 + 1 over GF(2). -/
def Obligations.Crc7IsPolynomialRemainder : Prop :=
  ∀ v : Payload,
    bitsPoly (crc7 v) =
      (bitsPoly v * Polynomial.X ^ 7 + ∑ i ∈ Finset.range 7, Polynomial.X ^ i) %ₘ crcGenerator

/-- R124: crc7 is affine, and the 18 numbers of the table determine it. -/
def Obligations.Crc7IsAffine : Prop :=
  (∀ a b : Payload, crc7 (a ^^^ b) = crc7 a ^^^ crc7 b ^^^ 0x7F) ∧
  (∀ v : Payload, crc7 v =
    (List.range 17).foldl (fun x i => if v.getLsbD i then x ^^^ crcBasis.getD i 0 else x) 0x7F) ∧
  crc7 0 = 0x7F ∧
  (List.range 17).map (fun i => crc7 (1#17 <<< i)) =
    [0x76, 0x6D, 0x5B, 0x37, 0x66, 0x4D, 0x1B, 0x3E, 0x74, 0x69, 0x53, 0x27, 0x46, 0x0D, 0x12, 0x2C, 0x50] ∧
  (∀ i, i < 17 → crcBasis.getD i 0 = crc7 (1#17 <<< i) ^^^ 0x7F ∧
    bitsPoly (crcBasis.getD i 0) = Polynomial.X ^ (i + 7) %ₘ crcGenerator)

/-- R146: DecodeSub accepts exactly the correctly constructed sub-blocks, each with its own value. -/
def Obligations.DecodeAcceptsOnlyEncoded : Prop :=
  (∀ (sb : SubBlock) (v : Half), decodeSub sb = .ok v ↔ sb = encodeSub v) ∧
  (∀ v w : Half, encodeSub v = encodeSub w → v = w)

/-- R147: a change of any one or any two bits of a correctly constructed sub-block is detected, as InvalidBit where it
clears the valid bit; the change of value bits 0, 3 and 7 is not. -/
def Obligations.OneAndTwoBitErrorsDetected : Prop :=
  (∀ (v : Half) (i : Fin 24), (∀ w, decodeSub ((encodeSub v).flip i) ≠ .ok w) ∧
    (i = 16 → decodeSub ((encodeSub v).flip i) = .error .invalidBit)) ∧
  (∀ (v : Half) (i j : Fin 24), i ≠ j → (∀ w, decodeSub (((encodeSub v).flip i).flip j) ≠ .ok w) ∧
    (i = 16 ∨ j = 16 → decodeSub (((encodeSub v).flip i).flip j) = .error .invalidBit)) ∧
  (∀ v : Half, decodeSub ((((encodeSub v).flip 0).flip 3).flip 7) = .ok (v ^^^ 0x0089))

/-! ## The port -/

/-- R53, R414: a waveform of words held until their acks, each followed by at least one cycle with req = 0, with any number
of such cycles before, between and after them, is exactly those transactions in order, whatever the wait cycles are (zero
wait cycles as log 9 reads them). -/
def Obligations.WaitCyclesAreInvisible : Prop :=
  ∀ (wait : Nat → Nat) (n : Nat) (ps : List PortPiece),
    portActions wait n .idle (heldWaveform wait n ps) = (heldWords ps).map .transaction

/-- R414: each breach of the port protocol is a violation, on which the step faults; nothing is read past it (which
breach is named, and in which cycle, is log 8). -/
def Obligations.PortBreachIsViolation : Prop :=
  ∀ (wait : Nat → Nat) (n k : Nat) (w : BusWord) (c : PortCycle) (cs : List PortCycle), c.rstN = true →
    (k < wait n → c.req = false →
      portActions wait n .idle (portHold k w ++ c :: cs) = [.violation .requestDropped]) ∧
    (k < wait n → c.req = true → busWord c.we c.addr c.wdata ≠ w →
      portActions wait n .idle (portHold k w ++ c :: cs) = [.violation .signalsChanged]) ∧
    (c.req = true →
      portActions wait n .idle (portHold (wait n) w ++ c :: cs) =
        [.transaction w, .violation .requestNotReleased])

/-- R402: reset before the ack of a transaction drops that transaction. The model's choices in it: where req is 0 or the
signals have changed in the very cycle of the reset, the reset counts and the breach does not (log 8), and the port is idle
after it, so that what the host drives next starts anew (log 7). -/
def Obligations.ResetDropsPendingTransaction : Prop :=
  ∀ (wait : Nat → Nat) (n k : Nat) (w : BusWord) (c : PortCycle) (cs : List PortCycle),
    k < wait n → c.rstN = false →
    portActions wait n .idle (portHold k w ++ c :: cs) =
      .resetDuring w :: portActions wait (n + 1) .idle cs
end

