-- ==== Sys2Proof/Laws/Bits.lean ====
section
/-! SUPPORT. The fields of concatenated words: a BUS15 word, the extracted sub-block, the two bytes of a 16-bit register. -/

namespace Sys2Proof

/-! ### The BUS15 word (R90) -/

@[simp] theorem busWe_busWord (we : Bool) (a : Addr) (v : Byte) : busWe (busWord we a v) = we := by
  unfold busWe busWord
  rw [BitVec.getLsbD_append, BitVec.getLsbD_append]
  simp

@[simp] theorem busAddr_busWord (we : Bool) (a : Addr) (v : Byte) : busAddr (busWord we a v) = a := by
  unfold busAddr busWord
  ext i hi
  rw [BitVec.getElem_extractLsb', BitVec.getLsbD_append, BitVec.getLsbD_append]
  simp [hi]

@[simp] theorem busData_busWord (we : Bool) (a : Addr) (v : Byte) : busData (busWord we a v) = v := by
  unfold busData busWord
  ext i hi
  rw [BitVec.getElem_extractLsb', BitVec.getLsbD_append]
  simp [hi]

/-- A BUS15 word is its three fields: no bit is dropped. -/
theorem busWord_fields (w : BusWord) : busWord (busWe w) (busAddr w) (busData w) = w := by
  apply BitVec.eq_of_getLsbD_eq
  intro i hi
  unfold busWord busWe busAddr busData
  rw [BitVec.getLsbD_append, BitVec.getLsbD_append, BitVec.getLsbD_ofBool, BitVec.getLsbD_extractLsb',
    BitVec.getLsbD_extractLsb']
  interval_cases i <;> rfl

/-- The two bytes of a word give the word back (log 5). -/
theorem decode_busBytes (w : BusWord) (rest : List Byte) :
    decode .bus15 (busBytes w ++ rest) = .ok (decodeBus15 w, rest) := by
  have top : (0#1 ++ w.extractLsb' 8 7 : Byte).getLsbD 7 = false := by
    rw [BitVec.getLsbD_append]; simp
  have word : (((0#1 ++ w.extractLsb' 8 7 : Byte).extractLsb' 0 7) ++ w.extractLsb' 0 8 : BusWord) = w := by
    apply BitVec.eq_of_getLsbD_eq
    intro i hi
    rw [BitVec.getLsbD_append, BitVec.getLsbD_extractLsb', BitVec.getLsbD_extractLsb', BitVec.getLsbD_append,
      BitVec.getLsbD_extractLsb']
    interval_cases i <;> rfl
  simp only [busBytes, List.cons_append, List.nil_append, decode]
  rw [top, word]
  rfl

end Sys2Proof

namespace Sys2Proof.Machine

/-! ### The extracted sub-block (R85) -/

theorem extract_v17 (sb : SubBlock) : (extract sb).v17 = sb.b2.extractLsb' 0 1 ++ sb.b1 ++ sb.b0 := rfl

@[simp] theorem extract_valid (sb : SubBlock) : (extract sb).valid = sb.b2.getLsbD 0 := by
  show (sb.b2.extractLsb' 0 1 ++ sb.b1 ++ sb.b0 : Payload).getLsbD 16 = _
  rw [BitVec.getLsbD_append, BitVec.getLsbD_append]
  simp

@[simp] theorem extract_chk (sb : SubBlock) : (extract sb).chk = sb.b2.extractLsb' 1 7 := rfl

@[simp] theorem extract_value (sb : SubBlock) : (extract sb).value = sb.b1 ++ sb.b0 := by
  apply BitVec.eq_of_getLsbD_eq
  intro i hi
  show ((sb.b2.extractLsb' 0 1 ++ sb.b1 ++ sb.b0 : Payload).extractLsb' 0 16).getLsbD i = _
  rw [BitVec.getLsbD_extractLsb', BitVec.getLsbD_append, BitVec.getLsbD_append, BitVec.getLsbD_append]
  interval_cases i <;> rfl

/-- With the valid bit set the payload is 0x10000 | value (R142). -/
theorem extract_v17_of_valid {sb : SubBlock} (h : sb.b2.getLsbD 0 = true) :
    (extract sb).v17 = 1#1 ++ (sb.b1 ++ sb.b0) := by
  apply BitVec.eq_of_getLsbD_eq
  intro i hi
  rw [extract_v17, BitVec.getLsbD_append, BitVec.getLsbD_append, BitVec.getLsbD_append, BitVec.getLsbD_append,
    BitVec.getLsbD_extractLsb']
  interval_cases i <;> first | rfl | exact h

/-- A 16-bit register is its two bytes. -/
theorem byteOf_one_append_zero (v : Half) : byteOf v 1 ++ byteOf v 0 = v := by
  apply BitVec.eq_of_getLsbD_eq
  intro i hi
  unfold byteOf
  rw [BitVec.getLsbD_append, BitVec.getLsbD_extractLsb', BitVec.getLsbD_extractLsb']
  interval_cases i <;> rfl

end Sys2Proof.Machine
end

