-- ==== Sys2Proof/Laws/Humidity.lean ====
section
/-! SUPPORT. How the exact absolute humidity of R170 depends on its operands (R177). -/

namespace Sys2Proof.Machine

/-- The exact value is linear in RAW_H (R177). -/
theorem ahExact_linear {t h : Half} (ht : t ≠ 0#16) : ahExact t h = h.toNat * ahExact t 1 := by
  rw [ahExact_eq ht, ahExact_eq ht]
  unfold ahCoeff
  rw [show ((1 : Half).toNat : ℝ) = 1 from congrArg Nat.cast (show (1 : Half).toNat = 1 from rfl) |>.trans Nat.cast_one]
  ring

/-- The exponent of R170 rises by more than the relative rise of t, above the pole. -/
theorem ahExponent_rise {a b : ℝ} (ha : 1898 ≤ a) (hab : a < b) (hb : b ≤ 65535) :
    (b - a) / a < 17.67 * (10 * b - 174816) / (10 * b - 18976) - 17.67 * (10 * a - 174816) / (10 * a - 18976) := by
  have da : 0 < 10 * a - 18976 := by linarith
  have db : 0 < 10 * b - 18976 := by linarith
  have rise : 17.67 * (10 * b - 174816) / (10 * b - 18976) - 17.67 * (10 * a - 174816) / (10 * a - 18976)
      = (b - a) * 27536928 / ((10 * b - 18976) * (10 * a - 18976)) := by
    rw [div_sub_div _ _ db.ne' da.ne']; congr 1; ring
  rw [rise, div_lt_div_iff₀ (by linarith) (mul_pos db da), mul_assoc]
  refine mul_lt_mul_of_pos_left ?_ (by linarith)
  nlinarith [mul_le_mul (show 10 * b - 18976 ≤ 636374 by linarith) (show 10 * a - 18976 ≤ 10 * a by linarith) da.le
    (by norm_num)]

/-- Above the pole the exact value is strictly increasing in RAW_T (R177). -/
theorem ahExact_strictMono {t u h : Half} (ht : 1898 ≤ t.toNat) (htu : t.toNat < u.toNat) (hh : h ≠ 0#16) :
    ahExact t h < ahExact u h := by
  have t0 : t ≠ 0#16 := by rintro rfl; simp at ht
  have u0 : u ≠ 0#16 := by rintro rfl; simp at htu
  have ha : (1898 : ℝ) ≤ t.toNat := by exact_mod_cast ht
  have hab : (t.toNat : ℝ) < u.toNat := by exact_mod_cast htu
  have hb : (u.toNat : ℝ) ≤ 65535 := by exact_mod_cast (show u.toNat ≤ 65535 by have := u.isLt; omega)
  have hp : (0 : ℝ) < h.toNat := by
    have : h.toNat ≠ 0 := by simpa [BitVec.toNat_eq] using hh
    exact_mod_cast Nat.pos_of_ne_zero this
  have rise := ahExponent_rise ha hab hb
  rw [ahExact_eq t0, ahExact_eq u0]
  unfold ahCoeff
  generalize (t.toNat : ℝ) = a at *
  generalize (u.toNat : ℝ) = b at *
  generalize (h.toNat : ℝ) = c at *
  have pa : 0 < a := by linarith
  have pb : 0 < b := by linarith
  set x := 17.67 * (10 * a - 174816) / (10 * a - 18976)
  set y := 17.67 * (10 * b - 174816) / (10 * b - 18976)
  -- e^y = e^x e^(y-x) > e^x (1 + (b-a)/a) = e^x b/a
  have grow : Real.exp x * (b / a) < Real.exp y := by
    have e : Real.exp y = Real.exp x * Real.exp (y - x) := by rw [← Real.exp_add]; congr 1; ring
    have k : b / a = 1 + (b - a) / a := by field_simp; ring
    have := Real.add_one_le_exp (y - x)
    rw [e, k]
    exact mul_lt_mul_of_pos_left (by linarith) (Real.exp_pos x)
  have scaled : 64 / a * Real.exp x < 64 / b * Real.exp y := by
    calc 64 / a * Real.exp x = 64 / b * (Real.exp x * (b / a)) := by field_simp
      _ < 64 / b * Real.exp y := mul_lt_mul_of_pos_left grow (by positivity)
  calc 2.1674 * 6.112 * (c / 512) * (64 / a) * Real.exp x
      = 2.1674 * 6.112 * (c / 512) * (64 / a * Real.exp x) := mul_assoc ..
    _ < 2.1674 * 6.112 * (c / 512) * (64 / b * Real.exp y) := mul_lt_mul_of_pos_left scaled (by positivity)
    _ = 2.1674 * 6.112 * (c / 512) * (64 / b) * Real.exp y := (mul_assoc ..).symm

/-- The same for RAW_T not above another. -/
theorem ahExact_mono {t u h : Half} (ht : 1898 ≤ t.toNat) (htu : t.toNat ≤ u.toNat) (hh : h ≠ 0#16) :
    ahExact t h ≤ ahExact u h := by
  rcases htu.lt_or_eq with lt | eq
  · exact (ahExact_strictMono ht lt hh).le
  · rw [BitVec.toNat_eq.mpr eq]

end Sys2Proof.Machine
end

