-- ==== Sys2Proof/Laws/State.lean ====
section
/-! SUPPORT. Each update of the state against each field, so that no proof unfolds a record update. -/

namespace Sys2Proof.Machine

/-! ### Regs.setImage -/

@[simp] theorem Regs.setImage_image (r : Regs) (v : Image) : (r.setImage v).image = v := rfl
@[simp] theorem Regs.setImage_status (r : Regs) (v : Image) : (r.setImage v).status = r.status := rfl
@[simp] theorem Regs.setImage_crcRes (r : Regs) (v : Image) : (r.setImage v).crcRes = r.crcRes := rfl
@[simp] theorem Regs.setImage_rawT (r : Regs) (v : Image) : (r.setImage v).rawT = r.rawT := rfl
@[simp] theorem Regs.setImage_rawH (r : Regs) (v : Image) : (r.setImage v).rawH = r.rawH := rfl
@[simp] theorem Regs.setImage_tempC (r : Regs) (v : Image) : (r.setImage v).tempC = r.tempC := rfl
@[simp] theorem Regs.setImage_ah (r : Regs) (v : Image) : (r.setImage v).ah = r.ah := rfl

/-! ### Regs.setStatus -/

@[simp] theorem Regs.setStatus_image (r : Regs) (v : Byte) : (r.setStatus v).image = r.image := rfl
@[simp] theorem Regs.setStatus_status (r : Regs) (v : Byte) : (r.setStatus v).status = v := rfl
@[simp] theorem Regs.setStatus_crcRes (r : Regs) (v : Byte) : (r.setStatus v).crcRes = r.crcRes := rfl
@[simp] theorem Regs.setStatus_rawT (r : Regs) (v : Byte) : (r.setStatus v).rawT = r.rawT := rfl
@[simp] theorem Regs.setStatus_rawH (r : Regs) (v : Byte) : (r.setStatus v).rawH = r.rawH := rfl
@[simp] theorem Regs.setStatus_tempC (r : Regs) (v : Byte) : (r.setStatus v).tempC = r.tempC := rfl
@[simp] theorem Regs.setStatus_ah (r : Regs) (v : Byte) : (r.setStatus v).ah = r.ah := rfl

/-! ### Regs.setCrcRes -/

@[simp] theorem Regs.setCrcRes_image (r : Regs) (v : Byte) : (r.setCrcRes v).image = r.image := rfl
@[simp] theorem Regs.setCrcRes_status (r : Regs) (v : Byte) : (r.setCrcRes v).status = r.status := rfl
@[simp] theorem Regs.setCrcRes_crcRes (r : Regs) (v : Byte) : (r.setCrcRes v).crcRes = v := rfl
@[simp] theorem Regs.setCrcRes_rawT (r : Regs) (v : Byte) : (r.setCrcRes v).rawT = r.rawT := rfl
@[simp] theorem Regs.setCrcRes_rawH (r : Regs) (v : Byte) : (r.setCrcRes v).rawH = r.rawH := rfl
@[simp] theorem Regs.setCrcRes_tempC (r : Regs) (v : Byte) : (r.setCrcRes v).tempC = r.tempC := rfl
@[simp] theorem Regs.setCrcRes_ah (r : Regs) (v : Byte) : (r.setCrcRes v).ah = r.ah := rfl

/-! ### Regs.setRawT -/

@[simp] theorem Regs.setRawT_image (r : Regs) (v : Half) : (r.setRawT v).image = r.image := rfl
@[simp] theorem Regs.setRawT_status (r : Regs) (v : Half) : (r.setRawT v).status = r.status := rfl
@[simp] theorem Regs.setRawT_crcRes (r : Regs) (v : Half) : (r.setRawT v).crcRes = r.crcRes := rfl
@[simp] theorem Regs.setRawT_rawT (r : Regs) (v : Half) : (r.setRawT v).rawT = v := rfl
@[simp] theorem Regs.setRawT_rawH (r : Regs) (v : Half) : (r.setRawT v).rawH = r.rawH := rfl
@[simp] theorem Regs.setRawT_tempC (r : Regs) (v : Half) : (r.setRawT v).tempC = r.tempC := rfl
@[simp] theorem Regs.setRawT_ah (r : Regs) (v : Half) : (r.setRawT v).ah = r.ah := rfl

/-! ### Regs.setRawH -/

@[simp] theorem Regs.setRawH_image (r : Regs) (v : Half) : (r.setRawH v).image = r.image := rfl
@[simp] theorem Regs.setRawH_status (r : Regs) (v : Half) : (r.setRawH v).status = r.status := rfl
@[simp] theorem Regs.setRawH_crcRes (r : Regs) (v : Half) : (r.setRawH v).crcRes = r.crcRes := rfl
@[simp] theorem Regs.setRawH_rawT (r : Regs) (v : Half) : (r.setRawH v).rawT = r.rawT := rfl
@[simp] theorem Regs.setRawH_rawH (r : Regs) (v : Half) : (r.setRawH v).rawH = v := rfl
@[simp] theorem Regs.setRawH_tempC (r : Regs) (v : Half) : (r.setRawH v).tempC = r.tempC := rfl
@[simp] theorem Regs.setRawH_ah (r : Regs) (v : Half) : (r.setRawH v).ah = r.ah := rfl

/-! ### Regs.setTempC -/

@[simp] theorem Regs.setTempC_image (r : Regs) (v : Word) : (r.setTempC v).image = r.image := rfl
@[simp] theorem Regs.setTempC_status (r : Regs) (v : Word) : (r.setTempC v).status = r.status := rfl
@[simp] theorem Regs.setTempC_crcRes (r : Regs) (v : Word) : (r.setTempC v).crcRes = r.crcRes := rfl
@[simp] theorem Regs.setTempC_rawT (r : Regs) (v : Word) : (r.setTempC v).rawT = r.rawT := rfl
@[simp] theorem Regs.setTempC_rawH (r : Regs) (v : Word) : (r.setTempC v).rawH = r.rawH := rfl
@[simp] theorem Regs.setTempC_tempC (r : Regs) (v : Word) : (r.setTempC v).tempC = v := rfl
@[simp] theorem Regs.setTempC_ah (r : Regs) (v : Word) : (r.setTempC v).ah = r.ah := rfl

/-! ### Regs.setAh -/

@[simp] theorem Regs.setAh_image (r : Regs) (v : Word) : (r.setAh v).image = r.image := rfl
@[simp] theorem Regs.setAh_status (r : Regs) (v : Word) : (r.setAh v).status = r.status := rfl
@[simp] theorem Regs.setAh_crcRes (r : Regs) (v : Word) : (r.setAh v).crcRes = r.crcRes := rfl
@[simp] theorem Regs.setAh_rawT (r : Regs) (v : Word) : (r.setAh v).rawT = r.rawT := rfl
@[simp] theorem Regs.setAh_rawH (r : Regs) (v : Word) : (r.setAh v).rawH = r.rawH := rfl
@[simp] theorem Regs.setAh_tempC (r : Regs) (v : Word) : (r.setAh v).tempC = r.tempC := rfl
@[simp] theorem Regs.setAh_ah (r : Regs) (v : Word) : (r.setAh v).ah = v := rfl

/-! ### State.withRegs -/

@[simp] theorem State.withRegs_regs (s : State) (r : Regs) :
    (s.withRegs r).regs = r := rfl
@[simp] theorem State.withRegs_port (s : State) (r : Regs) :
    (s.withRegs r).port = s.port := rfl
@[simp] theorem State.withRegs_inputs (s : State) (r : Regs) :
    (s.withRegs r).inputs = s.inputs := rfl

/-! ### State.withRdata -/

@[simp] theorem State.withRdata_regs (s : State) (b : Byte) :
    (s.withRdata b).regs = s.regs := rfl
@[simp] theorem State.withRdata_port (s : State) (b : Byte) :
    (s.withRdata b).port = { s.port with rdata := some b } := rfl
@[simp] theorem State.withRdata_inputs (s : State) (b : Byte) :
    (s.withRdata b).inputs = s.inputs := rfl

/-! ### State.beginTransaction -/

@[simp] theorem State.beginTransaction_regs (s : State) (rest : List HostAction) :
    (s.beginTransaction rest).regs = s.regs := rfl
@[simp] theorem State.beginTransaction_port (s : State) (rest : List HostAction) :
    (s.beginTransaction rest).port = { ack := true, rdata := none } := rfl
@[simp] theorem State.beginTransaction_inputs (s : State) (rest : List HostAction) :
    (s.beginTransaction rest).inputs = rest := rfl

/-! ### State.takeReset -/

@[simp] theorem State.takeReset_regs (s : State) (rest : List HostAction) :
    (s.takeReset rest).regs = Regs.reset := rfl
@[simp] theorem State.takeReset_port (s : State) (rest : List HostAction) :
    (s.takeReset rest).port = PortOut.quiet := rfl
@[simp] theorem State.takeReset_inputs (s : State) (rest : List HostAction) :
    (s.takeReset rest).inputs = rest := rfl

/-! ### State.idle -/

@[simp] theorem State.idle_regs (s : State) :
    s.idle.regs = s.regs := rfl
@[simp] theorem State.idle_port (s : State) :
    s.idle.port = PortOut.quiet := rfl
@[simp] theorem State.idle_inputs (s : State) :
    s.idle.inputs = s.inputs := rfl

/-! ### State.pushInput -/

@[simp] theorem State.pushInput_regs (s : State) (a : HostAction) :
    (s.pushInput a).regs = s.regs := rfl
@[simp] theorem State.pushInput_port (s : State) (a : HostAction) :
    (s.pushInput a).port = s.port := rfl
@[simp] theorem State.pushInput_inputs (s : State) (a : HostAction) :
    (s.pushInput a).inputs = a :: s.inputs := rfl

/-! ### State.appendInputs -/

@[simp] theorem State.appendInputs_regs (s : State) (as : List HostAction) :
    (s.appendInputs as).regs = s.regs := rfl
@[simp] theorem State.appendInputs_port (s : State) (as : List HostAction) :
    (s.appendInputs as).port = s.port := rfl
@[simp] theorem State.appendInputs_inputs (s : State) (as : List HostAction) :
    (s.appendInputs as).inputs = s.inputs ++ as := rfl

end Sys2Proof.Machine
end

