-- ==== Sys2Proof/Laws/Ops.lean ====
section
/-! SUPPORT. What each shared operation can do, said once; proofs cite these and do not unfold the operations. -/

namespace Sys2Proof.Machine

/-! ### How a command ends -/

theorem Regs.complete_eq (r : Regs) (v o d : Bool) : r.complete v o d = r.setStatus (statusComplete v o d) := rfl

theorem Regs.raise_eq (r : Regs) (e : CmdError) (sub : Sel) : r.raise e sub = r.setStatus (statusRaise e sub) := rfl

@[simp] theorem Regs.complete_image (r : Regs) (v o d : Bool) : (r.complete v o d).image = r.image := rfl
@[simp] theorem Regs.complete_status (r : Regs) (v o d : Bool) : (r.complete v o d).status = statusComplete v o d := rfl
@[simp] theorem Regs.complete_crcRes (r : Regs) (v o d : Bool) : (r.complete v o d).crcRes = r.crcRes := rfl
@[simp] theorem Regs.complete_rawT (r : Regs) (v o d : Bool) : (r.complete v o d).rawT = r.rawT := rfl
@[simp] theorem Regs.complete_rawH (r : Regs) (v o d : Bool) : (r.complete v o d).rawH = r.rawH := rfl
@[simp] theorem Regs.complete_tempC (r : Regs) (v o d : Bool) : (r.complete v o d).tempC = r.tempC := rfl
@[simp] theorem Regs.complete_ah (r : Regs) (v o d : Bool) : (r.complete v o d).ah = r.ah := rfl
@[simp] theorem Regs.raise_image (r : Regs) (e : CmdError) (b : Sel) : (r.raise e b).image = r.image := rfl
@[simp] theorem Regs.raise_status (r : Regs) (e : CmdError) (b : Sel) : (r.raise e b).status = statusRaise e b := rfl
@[simp] theorem Regs.raise_crcRes (r : Regs) (e : CmdError) (b : Sel) : (r.raise e b).crcRes = r.crcRes := rfl
@[simp] theorem Regs.raise_rawT (r : Regs) (e : CmdError) (b : Sel) : (r.raise e b).rawT = r.rawT := rfl
@[simp] theorem Regs.raise_rawH (r : Regs) (e : CmdError) (b : Sel) : (r.raise e b).rawH = r.rawH := rfl
@[simp] theorem Regs.raise_tempC (r : Regs) (e : CmdError) (b : Sel) : (r.raise e b).tempC = r.tempC := rfl
@[simp] theorem Regs.raise_ah (r : Regs) (e : CmdError) (b : Sel) : (r.raise e b).ah = r.ah := rfl

/-! ### The STATUS values (R31) -/

@[simp] theorem statusComplete_plain : statusComplete false false false = 0x01 := by decide
@[simp] theorem statusComplete_valid : statusComplete true false false = 0x11 := by decide
@[simp] theorem statusComplete_saturated : statusComplete false true false = 0x21 := by decide
@[simp] theorem statusComplete_noValue : statusComplete false false true = 0x41 := by decide
@[simp] theorem statusRaise_invalid_temperature : statusRaise .invalidBit .temperature = 0x02 := by decide
@[simp] theorem statusRaise_invalid_humidity : statusRaise .invalidBit .humidity = 0x0A := by decide
@[simp] theorem statusRaise_mismatch_temperature : statusRaise .checksumMismatch .temperature = 0x04 := by decide
@[simp] theorem statusRaise_mismatch_humidity : statusRaise .checksumMismatch .humidity = 0x0C := by decide
@[simp] theorem statusRaise_illegal : statusRaise .illegalCommand .temperature = 0x06 := by decide

/-! ### The register space -/

theorem locate_eq_cmd (a : Addr) : locate a = .cmd ↔ a = cmdAddr := by
  revert a; decide

/-- What a plain store can do: write one byte of IN, RAW_T or RAW_H, or nothing. -/
theorem Regs.store_cases (r : Regs) (a : Addr) (v : Byte) :
    (∃ k, locate a = .input k ∧ r.store a v = r.setImage (r.image.set k v)) ∨
    (∃ k, locate a = .rawT k ∧ r.store a v = r.setRawT (withByte r.rawT k v)) ∨
    (∃ k, locate a = .rawH k ∧ r.store a v = r.setRawH (withByte r.rawH k v)) ∨
    r.store a v = r := by
  unfold Regs.store
  cases h : locate a <;> simp

@[simp] theorem Image.get_set_same (m : Image) (k : Fin 6) (v : Byte) : (m.set k v).get k = v := by
  fin_cases k <;> rfl

theorem Image.get_set_other (m : Image) {j k : Fin 6} (v : Byte) (h : j ≠ k) : (m.set k v).get j = m.get j := by
  fin_cases j <;> fin_cases k <;> first | rfl | exact absurd rfl h

@[simp] theorem byteOf_append_zero (hi lo : Byte) : byteOf (hi ++ lo) 0 = lo := by
  unfold byteOf; ext i hi'; rw [BitVec.getElem_extractLsb', BitVec.getLsbD_append]; simp [hi']

@[simp] theorem byteOf_append_one (hi lo : Byte) : byteOf (hi ++ lo) 1 = hi := by
  unfold byteOf; ext i hi'; rw [BitVec.getElem_extractLsb', BitVec.getLsbD_append]; simp [hi']

@[simp] theorem byteOf_withByte_same (v : Half) (k : Fin 2) (b : Byte) : byteOf (withByte v k b) k = b := by
  fin_cases k <;> simp [withByte]

theorem byteOf_withByte_other (v : Half) {j k : Fin 2} (b : Byte) (h : j ≠ k) :
    byteOf (withByte v k b) j = byteOf v j := by
  fin_cases j <;> fin_cases k <;> first | exact absurd rfl h | simp [withByte]

/-! ### Commands -/

theorem decodeSub_cases (sb : SubBlock) :
    ((extract sb).valid = false ∧ decodeSub sb = .error .invalidBit) ∨
    ((extract sb).valid = true ∧ (extract sb).chk ≠ crc7 (extract sb).v17 ∧ decodeSub sb = .error .checksumMismatch) ∨
    ((extract sb).valid = true ∧ (extract sb).chk = crc7 (extract sb).v17 ∧ decodeSub sb = .ok (extract sb).value) := by
  unfold decodeSub
  cases hv : (extract sb).valid
  · exact .inl ⟨rfl, if_pos rfl⟩
  · rw [if_neg (by decide)]
    by_cases hc : (extract sb).chk = crc7 (extract sb).v17
    · exact .inr (.inr ⟨rfl, hc, if_neg (not_not_intro hc)⟩)
    · exact .inr (.inl ⟨rfl, hc, if_pos hc⟩)

/-- DecodeSub never answers IllegalCommand. -/
theorem decodeSub_error {sb : SubBlock} {e : CmdError} (h : decodeSub sb = .error e) :
    e = .invalidBit ∨ e = .checksumMismatch := by
  rcases decodeSub_cases sb with ⟨-, k⟩ | ⟨-, -, k⟩ | ⟨-, -, k⟩ <;> rw [k] at h <;> cases h
  · exact .inl rfl
  · exact .inr rfl

/-- DECODE either raises or writes its destination. -/
theorem decodeOp_cases (sel : Sel) (r : Regs) :
    (∃ e, decodeSub (r.image.sub sel) = .error e ∧ decodeOp sel r = r.raise e sel) ∨
    (∃ v, decodeSub (r.image.sub sel) = .ok v ∧ decodeOp sel r = (r.setRaw sel v).complete false false false) := by
  unfold decodeOp
  cases h : decodeSub (r.image.sub sel) <;> simp

/-- AhCompute has four outcomes. -/
theorem ahCompute_cases (t h : Half) :
    (t = 0#16 ∧ ahCompute t h = ⟨none, false, false, true⟩) ∨
    (t ≠ 0#16 ∧ h = 0#16 ∧ ahCompute t h = ⟨some 0#32, true, false, false⟩) ∨
    (t ≠ 0#16 ∧ h ≠ 0#16 ∧ (Config.ahApprox t h).2 = true ∧ ahCompute t h = ⟨some 0xFFFFFFFF#32, false, true, false⟩) ∨
    (t ≠ 0#16 ∧ h ≠ 0#16 ∧ (Config.ahApprox t h).2 = false ∧
      ahCompute t h = ⟨some (Config.ahApprox t h).1, true, false, false⟩) := by
  unfold ahCompute
  by_cases ht : t = 0#16
  · exact .inl ⟨ht, if_pos ht⟩
  rw [if_neg ht]
  by_cases hh : h = 0#16
  · exact .inr (.inl ⟨ht, hh, if_pos hh⟩)
  rw [if_neg hh]
  cases ho : (Config.ahApprox t h).2
  · exact .inr (.inr (.inr ⟨ht, hh, rfl, rfl⟩))
  · exact .inr (.inr (.inl ⟨ht, hh, rfl, rfl⟩))

/-- Completing with an AH result writes AH where there is a value, and STATUS. -/
theorem Regs.completeAh_cases (r : Regs) (a : AhResult) :
    (a.write = none ∧ r.completeAh a = r.complete a.valid a.ovf a.dom) ∨
    (∃ q, a.write = some q ∧ r.completeAh a = (r.setAh q).complete a.valid a.ovf a.dom) := by
  unfold Regs.completeAh
  cases h : a.write <;> simp

/-- MEASURE raises for temperature, raises for humidity, or writes every result. -/
theorem measureOp_cases (r : Regs) :
    (∃ e, decodeSub (r.image.sub .temperature) = .error e ∧ measureOp r = r.raise e .temperature) ∨
    (∃ t e, decodeSub (r.image.sub .temperature) = .ok t ∧ decodeSub (r.image.sub .humidity) = .error e ∧
      measureOp r = r.raise e .humidity) ∨
    (∃ t h, decodeSub (r.image.sub .temperature) = .ok t ∧ decodeSub (r.image.sub .humidity) = .ok h ∧
      measureOp r = (((r.setRawT t).setRawH h).setTempC (celsiusWord t)).completeAh (ahCompute t h)) := by
  unfold measureOp
  cases ht : decodeSub (r.image.sub .temperature) <;> simp
  cases hh : decodeSub (r.image.sub .humidity) <;> simp

/-- What Execute can be (R100). -/
theorem execute_cases (c : Byte) (r : Regs) :
    (decodeCommand c = .nop ∧ execute c r = nopOp r) ∨
    (∃ sel, decodeCommand c = .crc7 sel ∧ execute c r = crc7Op sel r) ∨
    (∃ sel, decodeCommand c = .decode sel ∧ execute c r = decodeOp sel r) ∨
    (decodeCommand c = .convert ∧ execute c r = convertOp r) ∨
    (decodeCommand c = .ahum ∧ execute c r = ahumOp r) ∨
    (decodeCommand c = .measure ∧ execute c r = measureOp r) ∨
    (decodeCommand c = .illegal ∧ execute c r = illegalOp r) := by
  unfold execute
  cases h : decodeCommand c <;> simp

/-- A write either executes a command or stores a byte. -/
theorem Regs.write_cases (r : Regs) (a : Addr) (v : Byte) :
    (a = cmdAddr ∧ r.write a v = execute v r) ∨ (a ≠ cmdAddr ∧ r.write a v = r.store a v) := by
  unfold Regs.write
  by_cases h : a = cmdAddr <;> simp [h]

/-! ### The step -/

/-- What exec answers: a next state in which the registers or the read data changed, and nothing else. -/
theorem exec_next (i : Instr) (s : State) :
    (∃ r, exec i s = .next (s.withRegs r)) ∨ (∃ a, i = .rd a ∧ exec i s = .next (s.withRdata (s.regs.read a))) := by
  cases i
  case rd a => exact .inr ⟨a, rfl, rfl⟩
  all_goals exact .inl ⟨_, rfl⟩

/-- What a step can be, by the host's next action. -/
theorem step_cases (s : State) :
    (s.inputs = [] ∧ step s = .next s.idle) ∨
    (∃ w rest, s.inputs = .transaction w :: rest ∧ step s = exec (decodeBus15 w) (s.beginTransaction rest)) ∨
    (∃ rest, (s.inputs = .reset :: rest ∨ ∃ w, s.inputs = .resetDuring w :: rest) ∧ step s = .next (s.takeReset rest)) ∨
    (∃ v rest, s.inputs = .violation v :: rest ∧ step s = .fault (.portProtocol v)) := by
  unfold step
  match h : s.inputs with
  | [] => simp
  | .transaction w :: rest => simp
  | .reset :: rest => simp
  | .resetDuring w :: rest => simp
  | .violation v :: rest => simp

end Sys2Proof.Machine
end

