-- ==== Sys2Proof/Laws/PerInstr.lean ====
section
/-! SUPPORT. Facts about every instruction as syntax, one lemma per constructor. -/

namespace Sys2Proof.Laws.EncodedLength

/-- An instruction's encoding has the one length of its format (R80, R88). -/
def Statement (i : Instr) : Prop := (encode i).length = formatBytes (instrFormat i)

theorem nop : Statement .nop := rfl

theorem crc7 (sel : Sel) : Statement (.crc7 sel) := rfl

theorem decode (sel : Sel) : Statement (.decode sel) := rfl

theorem convert : Statement .convert := rfl

theorem ahum : Statement .ahum := rfl

theorem measure : Statement .measure := rfl

theorem illegal (c : Byte) : Statement (.illegal c) := rfl

theorem wr (a : Addr) (v : Byte) : Statement (.wr a v) := rfl

theorem rd (a : Addr) : Statement (.rd a) := rfl

end Sys2Proof.Laws.EncodedLength
end

