-- ==== Sys2Proof/Laws/Port.lean ====
section
/-! SUPPORT. What the port monitor reads from a held request. -/

namespace Sys2Proof.Machine

/-- The word of a cycle that holds `w`. -/
@[simp] theorem PortCycle.word_held (r q : Bool) (w : BusWord) :
    (PortCycle.mk r q (busWe w) (busAddr w) (busData w)).word = w := busWord_fields w

/-- A cycle without request and without reset leaves an idle port idle. -/
theorem portActions_idle (wait : Nat → Nat) (n : Nat) (c : PortCycle) (cs : List PortCycle) (hr : c.rstN = true)
    (hq : c.req = false) : portActions wait n .idle (c :: cs) = portActions wait n .idle cs := by
  rw [portActions]; simp [portCycle, hr, hq]

/-- A cycle without request and without reset frees the port after an ack. -/
theorem portActions_release (wait : Nat → Nat) (n : Nat) (c : PortCycle) (cs : List PortCycle) (hr : c.rstN = true)
    (hq : c.req = false) : portActions wait n .acked (c :: cs) = portActions wait n .idle cs := by
  rw [portActions]; simp [portCycle, hr, hq]

/-- `k` more cycles of a pending request use up `k` of its wait cycles. -/
theorem portActions_pending (wait : Nat → Nat) (n : Nat) (w : BusWord) (cs : List PortCycle) {k left : Nat}
    (h : k ≤ left) :
    portActions wait n (.pending w left)
        (List.replicate k { rstN := true, req := true, we := busWe w, addr := busAddr w, wdata := busData w } ++ cs) =
      portActions wait n (.pending w (left - k)) cs := by
  induction k generalizing left with
  | zero => rfl
  | succ k ih =>
    obtain ⟨l, rfl⟩ : ∃ l, left = l + 1 := ⟨left - 1, by omega⟩
    rw [List.replicate_succ, List.cons_append, portActions]
    simp only [portCycle, PortCycle.word_held, Bool.true_eq_false, if_false, ne_eq, not_true_eq_false]
    rw [ih (by omega), Nat.add_sub_add_right]

/-- A request held for fewer cycles than its ack takes is pending. -/
theorem portActions_hold (wait : Nat → Nat) {n k : Nat} (w : BusWord) (cs : List PortCycle) (h : k < wait n) :
    portActions wait n .idle (portHold k w ++ cs) = portActions wait n (.pending w (wait n - 1 - k)) cs := by
  obtain ⟨m, hm⟩ : ∃ m, wait n = m + 1 := ⟨wait n - 1, by omega⟩
  rw [portHold, List.replicate_succ, List.cons_append, portActions]
  simp only [portCycle, PortCycle.word_held, Bool.true_eq_false, if_false, hm]
  rw [portActions_pending wait n w cs (by omega), Nat.add_sub_cancel]

/-- A request held for all its cycles is its transaction, and the port has acked. -/
theorem portActions_hold_acked (wait : Nat → Nat) (n : Nat) (w : BusWord) (cs : List PortCycle) :
    portActions wait n .idle (portHold (wait n) w ++ cs) = .transaction w :: portActions wait (n + 1) .acked cs := by
  rcases hk : wait n with _ | m
  · simp [portHold, portActions, portCycle, hk]
  · have split : portHold (m + 1) w ++ cs =
        portHold m w ++ { rstN := true, req := true, we := busWe w, addr := busAddr w, wdata := busData w } :: cs := by
      unfold portHold; rw [List.replicate_succ', List.append_assoc]; rfl
    have last : m + 1 - 1 - m = 0 := by omega
    rw [split, portActions_hold wait w _ (by omega), hk, last, portActions]
    simp only [portCycle, PortCycle.word_held, Bool.true_eq_false, if_false, ne_eq, not_true_eq_false]

end Sys2Proof.Machine
end

