-- ==== Sys2Proof/Laws/Safety.lean ====
section
/-! SUPPORT. The soundness predicates as propositions, and the values they rest on. -/

namespace Sys2Proof.Machine

theorem Regs.wf_iff (r : Regs) : r.wf = true ↔
    r.status ∈ statusValues ∧ r.crcRes.getLsbD 7 = false ∧ (r.tempC = 0 ∨ isCelsiusWord r.tempC = true) ∧
    (statusAhOvf r.status = true → r.ah = 0xFFFFFFFF) := by
  cases h : statusAhOvf r.status <;> simp [Regs.wf, h, and_assoc]

theorem State.wf_iff (s : State) :
    s.wf = true ↔ s.regs.wf = true ∧ (s.port.ack = true ∨ s.port.rdata = none) := by
  simp [State.wf]

/-- TEMP_C's integer value fits its register (R162). -/
theorem celsiusWord_toInt (t : Half) : (celsiusWord t).toInt = 100 * (t.toNat : Int) - 1748160 := by
  unfold celsiusWord
  have := t.isLt
  rw [BitVec.toInt_ofInt, Int.bmod_eq_of_le] <;> omega

/-- A converted temperature is one of the values TEMP_C may hold. -/
theorem isCelsiusWord_celsiusWord (t : Half) : isCelsiusWord (celsiusWord t) = true := by
  have := t.isLt
  simp only [isCelsiusWord, celsiusWord_toInt, Bool.and_eq_true, decide_eq_true_eq, beq_iff_eq]
  omega

end Sys2Proof.Machine
end

