-- ==== Sys2Proof/Tests/Slice0.lean ====
section
/-! SUPPORT. Tests, their expected results taken from spec/95_test_vectors.md and the tables of the rules; the smoke test of
WellFormed; and for each statement with hypotheses a witness that meets them. -/

namespace Sys2Proof.Tests

open Sys2Proof Sys2Proof.Machine

/-! ## Helpers -/

/-- Reset registers with an image. -/
def imageRegs (b0 b1 b2 b3 b4 b5 : Byte) : Regs := { Regs.reset with image := ⟨b0, b1, b2, b3, b4, b5⟩ }

/-- Reset registers with raw values. -/
def rawRegs (t h : Half) : Regs := { Regs.reset with rawT := t, rawH := h }

/-- The reset state with other registers. -/
def stateOf (r : Regs) : State := { State.reset with regs := r }

/-- The registers after an instruction on `r`. -/
def after (i : Instr) (r : Regs) : Option Regs :=
  match exec i (stateOf r) with
  | .next t => some t.regs
  | _ => none

/-- The corrected fixture of 90_conflicts.md C2 (vector M1). -/
def fixture : Regs := imageRegs 0x00 0x44 0x23 0x00 0x64 0xC7

/-! ## WellFormed: what the check refuses -/

theorem test_wellFormed_refuses_legal_byte_as_illegal : (Instr.illegal 0x00).wellFormed = false := by decide

theorem test_wellFormed_refuses_sel_byte_as_illegal : (Instr.illegal 0x09).wellFormed = false := by decide

theorem test_wellFormed_takes_illegal_byte : (Instr.illegal 0x06).wellFormed = true := by decide

/-! ## Decoding: words written out from R81, R82, R90 -/

theorem test_decode_nop : decodeCmd8 0b00000000 = .nop := by decide
theorem test_decode_crc7 : decodeCmd8 0b00000001 = .crc7 .temperature ∧ decodeCmd8 0b00001001 = .crc7 .humidity := by
  decide
theorem test_decode_decode :
    decodeCmd8 0b00000010 = .decode .temperature ∧ decodeCmd8 0b00001010 = .decode .humidity := by decide
theorem test_decode_convert : decodeCmd8 0b00000011 = .convert := by decide
theorem test_decode_ahum : decodeCmd8 0b00000100 = .ahum := by decide
theorem test_decode_measure : decodeCmd8 0b00000101 = .measure := by decide
-- 95 section 2.6, E7 to E11
theorem test_decode_illegal : [0x06, 0x07, 0x08, 0x0B, 0x0C, 0x0D, 0x0E, 0x0F, 0x10, 0x13, 0x85, 0xFF].all
    (fun c : Byte => decodeCmd8 c == .illegal c) = true := by decide
-- R90: 0b1_001000_00000101 is WR 0x08, 0x05 and 0b0_001001_00000000 is RD 0x09
theorem test_decode_wr : decodeBus15 0b100100000000101 = .wr 0x08 0x05 := by decide
theorem test_decode_rd : decodeBus15 0b000100100000000 = .rd 0x09 := by decide
theorem test_decode_bytes_truncated : (decode .bus15 [0x05]).toOption = none := by decide
theorem test_decode_bytes_spare_bit : (decode .bus15 [0x05, 0xC8]).toOption = none := by decide
theorem test_table_word_cmd8 : decodeTableWord 8 0x0A = some (.decode .humidity) := by decide
theorem test_table_word_bus15 : decodeTableWord 16 0x4805 = some (.wr 0x08 0x05) := by decide
-- R91 and program P1 of 95 section 3
theorem test_expand_load6 :
    expand (.load6 0x00 0x44 0x23 0x00 0x64 0xC7) = [0x4000, 0x4144, 0x4223, 0x4300, 0x4464, 0x45C7] := by decide
theorem test_expand_rd32 : expand (.rd32 0x14) = [0x1400, 0x1500, 0x1600, 0x1700] := by decide

/-! ## CRC7: 95 section 2.1 -/

theorem test_crc7_vectors : [0x00000, 0x10000, 0x0FFFF, 0x1FFFF, 0x14400, 0x16400, 0x14480, 0x1A5A5, 0x15555, 0x0AAAA].map crc7
    = [0x7F, 0x50, 0x1A, 0x35, 0x11, 0x63, 0x50, 0x08, 0x73, 0x39] := by set_option maxRecDepth 20000 in decide
-- C12 and C13
theorem test_crc7_command : after (.crc7 .temperature) (imageRegs 0x00 0x44 0x81 0x00 0x64 0x41)
    = some { imageRegs 0x00 0x44 0x81 0x00 0x64 0x41 with crcRes := 0x11, status := 0x01 } := by set_option maxRecDepth 20000 in decide
theorem test_crc7_command_humidity : (after (.crc7 .humidity) (imageRegs 0x00 0x44 0x81 0x00 0x64 0x41)).map Regs.crcRes
    = some 0x63 := by set_option maxRecDepth 20000 in decide

/-! ## DECODE: 95 section 2.2 -/

-- D2, and D12 in the humidity sub-block
theorem test_decode_ok : after (.decode .temperature) fixture = some { fixture with rawT := 0x4400, status := 0x01 } := by
  set_option maxRecDepth 20000 in decide
theorem test_decode_mismatch : after (.decode .humidity) (imageRegs 0 0 0 0xFF 0xFF 0xFF)
    = some { imageRegs 0 0 0 0xFF 0xFF 0xFF with status := 0x0C } := by set_option maxRecDepth 20000 in decide

/-! ## CONVERT: 95 section 2.3, T1 and T6 -/

theorem test_convert_minimum : (after .convert Regs.reset).map Regs.tempC = some 0xFFE55340 := by decide
theorem test_convert_274K : (after .convert (rawRegs 17536 0)).map Regs.tempC = some 0x00001540 := by decide

/-! ## AHUM: 95 section 2.4, A23 and A24 -/

theorem test_ahum_zero_humidity : after .ahum { rawRegs 19082 0 with ah := 7 }
    = some { rawRegs 19082 0 with ah := 0, status := 0x11 } := by decide
theorem test_ahum_no_value : after .ahum { rawRegs 0 25600 with ah := 7 }
    = some { rawRegs 0 25600 with ah := 7, status := 0x41 } := by decide

/-! ## MEASURE: 95 section 2.5, M7, M10 -/

theorem test_measure_temperature_error_first : (after .measure (imageRegs 0x00 0x44 0x81 0x00 0x64 0xC6)).map Regs.status
    = some 0x04 := by set_option maxRecDepth 20000 in decide
theorem test_measure_zero_humidity : after .measure { imageRegs 0x8A 0x4A 0xD1 0x00 0x00 0xA1 with ah := 7 }
    = some { imageRegs 0x8A 0x4A 0xD1 0x00 0x00 0xA1 with
        rawT := 0x4A8A, tempC := 0x00027128, ah := 0, status := 0x11 } := by set_option maxRecDepth 20000 in decide

/-! ## NOP, ILLEGAL, WR, RD: 95 sections 2.6 and 2.7 -/

theorem test_nop_keeps_status : (after .nop { Regs.reset with status := 0x04 }).map Regs.status = some 0x04 := by decide
-- R102's example
theorem test_illegal : after (.wr 0x08 0x06) { fixture with status := 0x11 } = some { fixture with status := 0x06 } := by
  decide
-- H8 and H2
theorem test_wr_byte_of_rawT : after (.wr 0x11 0x44) (rawRegs 0x1234 0) = some (rawRegs 0x4434 0) := by decide
theorem test_wr_status_ignored : after (.wr 0x09 0xFF) fixture = some fixture := by decide
-- H7 and H4
theorem test_rd_tempC : [0x14, 0x15, 0x16, 0x17].map ({ Regs.reset with tempC := 0xFFFFE340 } : Regs).read
    = [0x40, 0xE3, 0xFF, 0xFF] := by decide
theorem test_rd_reserved : fixture.read 0x06 = 0x00 := by decide

/-! ## The step -/

-- C14: CRC7 T runs as the first instruction after reset
theorem test_step_crc7 : (match step (State.reset.withFetchWord 8 0x01) with
    | .next t => t == { regs := { Regs.reset with crcRes := 0x7F, status := 0x01 }, port := ⟨true, none⟩, inputs := [] }
    | _ => false) = true := by set_option maxRecDepth 20000 in decide
theorem test_step_rd : (match step (State.reset.withFetchWord 16 0x0900) with
    | .next t => t == { regs := Regs.reset, port := ⟨true, some 0x00⟩, inputs := [] }
    | _ => false) = true := by decide
-- H9: reset while MEASURE is pending
theorem test_step_reset_pending : (match step { stateOf fixture with inputs := [.resetDuring 0x4805] } with
    | .next t => t == State.reset
    | _ => false) = true := by decide

/-! ## Witnesses: each meets every hypothesis of the statement it is named after -/

/-- A state that is not reset, with a port output and a list of actions. -/
def someState (i : List HostAction) : State := { regs := fixture, port := ⟨true, some 5⟩, inputs := i }

theorem witness_DecodeOfEncodeIsIdentity :
    (Instr.illegal 0xFF).wellFormed = true ∧ (Instr.wr 0x3F 0xFF).wellFormed = true := by decide

/-- A write word, and read words with and without data. -/
theorem witness_EncodeOfDecodeIsIdentity :
    (0x7FFF#15).getLsbD 14 = true ∧ (0x3F00#15).getLsbD 14 = false ∧ (0x3FFF#15).getLsbD 14 = false := by decide

theorem witness_LegalCommandBytes : decodeCmd8 0x06 = .illegal 0x06 ∧ decodeCmd8 0xFF = .illegal 0xFF := by decide

theorem witness_StepRunsDecodedInstruction :
    (someState [.transaction 0x0900]).inputs = .transaction 0x0900 :: [] ∧
    (someState [.transaction 0x4805]).inputs = .transaction (0x4800#15 ||| (0x05#8).setWidth 15) :: [] := by decide

theorem witness_ResetZeroesEveryRegister :
    (someState [.reset]).inputs = .reset :: [] ∧ (someState [.resetDuring 0x4805]).inputs = .resetDuring 0x4805 :: [] := by
  decide

theorem witness_StepStopsOnlyOnViolation :
    ∃ v rest, (someState [.violation .signalsChanged]).inputs = .violation v :: rest := ⟨_, _, rfl⟩

theorem witness_IdleStepKeepsRegisters : (someState []).inputs = [] := rfl

theorem witness_NopHasNoEffect : instrFormat .ahum = .cmd8 ∧ Instr.ahum ≠ .nop ∧
    (stateOf { fixture with status := 0xFF }).regs.status = 0xFF := ⟨rfl, by decide, rfl⟩

/-- D1, D2 and D4 of 95 section 2.2: one sub-block for each outcome. -/
theorem witness_DecodeSubOutcome :
    (⟨0x00, 0x00, 0x00⟩ : SubBlock).b2.getLsbD 0 = false ∧
    ((⟨0x00, 0x44, 0x23⟩ : SubBlock).b2.getLsbD 0 = true ∧
      (⟨0x00, 0x44, 0x23⟩ : SubBlock).b2.extractLsb' 1 7 = crc7 (1#1 ++ (0x44#8 ++ 0x00#8))) ∧
    ((⟨0x00, 0x44, 0x81⟩ : SubBlock).b2.getLsbD 0 = true ∧
      (⟨0x00, 0x44, 0x81⟩ : SubBlock).b2.extractLsb' 1 7 ≠ crc7 (1#1 ++ (0x44#8 ++ 0x00#8))) := by set_option maxRecDepth 20000 in decide

theorem fixture_temperature : decodeSub ⟨0x00, 0x44, 0x23⟩ = .ok 0x4400 := by set_option maxRecDepth 20000 in decide

theorem fixture_humidity : decodeSub ⟨0x00, 0x64, 0xC7⟩ = .ok 0x6400 := by set_option maxRecDepth 20000 in decide

/-- The fixture meets the hypotheses of every statement about two correct sub-blocks. -/
theorem witness_DecodeWritesRawOnSuccess :
    decodeSub ⟨(someState []).regs.image.in0, (someState []).regs.image.in1, (someState []).regs.image.in2⟩ = .ok 0x4400 ∧
    decodeSub ⟨(someState []).regs.image.in3, (someState []).regs.image.in4, (someState []).regs.image.in5⟩ = .ok 0x6400 :=
  ⟨fixture_temperature, fixture_humidity⟩

theorem witness_DecodeErrorWritesOnlyStatus :
    (stateOf Regs.reset).regs.image.in2.getLsbD 0 = false ∧ (stateOf Regs.reset).regs.image.in5.getLsbD 0 = false ∧
    (let m := (stateOf (imageRegs 0x00 0x44 0x81 0x00 0x64 0x41)).regs.image
     m.in2.getLsbD 0 = true ∧ m.in2.extractLsb' 1 7 ≠ crc7 (1#1 ++ (m.in1 ++ m.in0)) ∧
     m.in5.getLsbD 0 = true ∧ m.in5.extractLsb' 1 7 ≠ crc7 (1#1 ++ (m.in4 ++ m.in3))) := by set_option maxRecDepth 20000 in decide

theorem witness_ConvertRangeAndSign :
    (stateOf (rawRegs 0 0)).regs.rawT = 0#16 ∧ (stateOf (rawRegs 65535 0)).regs.rawT = 65535 ∧
    (stateOf (rawRegs 17481 0)).regs.rawT = 17481 ∧ (stateOf (rawRegs 17482 0)).regs.rawT = 17482 ∧
    (∃ t, exec .convert (stateOf (rawRegs 17481 0)) = .next t) ∧
    (∃ t, exec .convert (stateOf (rawRegs 17482 0)) = .next t) ∧
    (stateOf (rawRegs 17482 0)).regs.rawT.toNat = (stateOf (rawRegs 17481 0)).regs.rawT.toNat + 1 :=
  ⟨rfl, rfl, rfl, rfl, ⟨_, rfl⟩, ⟨_, rfl⟩, rfl⟩

/-- At 17481 (just below 0 °C) and the smallest humidity the exact value is small. -/
theorem ahExact_17481 : ahExact 17481 1 ≤ 1 := by
  rw [ahExact_eq (by decide)]
  have e : Real.exp (17.67 * (10 * ((17481 : Half).toNat : ℝ) - 174816) / (10 * (17481 : Half).toNat - 18976)) ≤ 1 := by
    rw [Real.exp_le_one_iff]
    have : ((17481 : Half).toNat : ℝ) = 17481 := rfl
    rw [this]; norm_num
  have c : ahCoeff 17481 1 ≤ 1 := by
    have : ahCoeff 17481 1 = 2.1674 * 6.112 * (((1 : ℕ) : ℝ) / 512) * (64 / ((17481 : ℕ) : ℝ)) := rfl
    rw [this]; norm_num
  exact mul_le_one₀ c (Real.exp_pos _).le e

theorem ahMax_bound : 70000 > ahMax + Config.ahTol ∧ 1 ≤ ahMax - Config.ahTol := by
  have := Config.ahTol_bounds.2
  have m : ahMax = 65535.9999847412109375 := by unfold ahMax; norm_num
  rw [m]; norm_num at *; constructor <;> linarith

/-- The first case of each clause of AhumWithinTolerance, and the range of AhumSaturatesBelowPole. -/
theorem witness_AhumWithinTolerance :
    (ahExact (stateOf (rawRegs 17481 1)).regs.rawT (stateOf (rawRegs 17481 1)).regs.rawH ≤ ahMax - Config.ahTol) ∧
    (ahMax + Config.ahTol < ahExact (stateOf (rawRegs 1 1)).regs.rawT (stateOf (rawRegs 1 1)).regs.rawH) ∧
    (rawRegs 17481 1).rawT ≠ 0#16 ∧ (rawRegs 17481 1).rawH ≠ 0#16 ∧ (rawRegs 1 1).rawT ≠ 0#16 ∧
    (rawRegs 1 1).rawH ≠ 0#16 :=
  ⟨ahExact_17481.trans ahMax_bound.2,
    ahMax_bound.1.trans (ahExact_below_pole (t := 1) (h := 1) (by decide) (by decide) (by decide)),
    by decide, by decide, by decide, by decide⟩

/-- Each of the four cases of AhumEffect occurs, whatever conforming unit the block has. -/
theorem witness_AhumEffect :
    (rawRegs 0 5).rawT = 0#16 ∧ ((rawRegs 1 0).rawT ≠ 0#16 ∧ (rawRegs 1 0).rawH = 0#16) ∧
    (Config.ahApprox (rawRegs 1 1).rawT (rawRegs 1 1).rawH).2 = true ∧
    (Config.ahApprox (rawRegs 17481 1).rawT (rawRegs 17481 1).rawH).2 = false := by
  obtain ⟨a, b, t1, h1, t2, h2⟩ := witness_AhumWithinTolerance
  exact ⟨rfl, by decide, (Config.ahApprox_accurate t2 h2).2.1 b, ((Config.ahApprox_accurate t1 h1).1 a).1⟩

theorem witness_AhumSaturatesBelowPole :
    (1 ≤ (rawRegs 1 1).rawT.toNat ∧ (rawRegs 1 1).rawT.toNat ≤ 1897 ∧ 1 ≤ (rawRegs 1 1).rawH.toNat) ∧
    (1 ≤ (rawRegs 1897 65535).rawT.toNat ∧ (rawRegs 1897 65535).rawT.toNat ≤ 1897 ∧
      1 ≤ (rawRegs 1897 65535).rawH.toNat) := by decide

theorem witness_AhumRoomTemperatureBound : (rawRegs 19082 25600).rawT = 19082 ∧ (rawRegs 19081 25600).rawT = 19081 ∧
    (rawRegs 19082 25600).rawH = 25600 := by decide

/-- Both ends of each range, for both humidities. -/
theorem witness_AhumRangeEdge :
    (1898 ≤ (rawRegs 1898 65535).rawT.toNat ∧ (rawRegs 1898 65535).rawT.toNat ≤ 37991) ∧
    (1898 ≤ (rawRegs 37991 65535).rawT.toNat ∧ (rawRegs 37991 65535).rawT.toNat ≤ 37991) ∧
    (1898 ≤ (rawRegs 39380 51200).rawT.toNat ∧ (rawRegs 39380 51200).rawT.toNat ≤ 39380) ∧
    37992 ≤ (rawRegs 37992 65535).rawT.toNat ∧ 37992 ≤ (rawRegs 65535 65535).rawT.toNat ∧
    39381 ≤ (rawRegs 39381 51200).rawT.toNat ∧ 39381 ≤ (rawRegs 65535 51200).rawT.toNat ∧
    (rawRegs 65535 65535).rawH = 65535 ∧ (rawRegs 65535 51200).rawH = 51200 := by decide

theorem witness_MeasureWritesAllResults :
    decodeSub ⟨fixture.image.in0, fixture.image.in1, fixture.image.in2⟩ = .ok 0x4400 ∧
    decodeSub ⟨fixture.image.in3, fixture.image.in4, fixture.image.in5⟩ = .ok 0x6400 :=
  ⟨fixture_temperature, fixture_humidity⟩

/-- M3, M2, M4 and M5 of 95 section 2.5: one image for each clause. -/
theorem witness_MeasureChecksTemperatureFirst :
    decodeSub ⟨0x00, 0x00, 0x00⟩ = .error .invalidBit ∧ decodeSub ⟨0x00, 0x44, 0x81⟩ = .error .checksumMismatch ∧
    decodeSub ⟨0x00, 0x44, 0x23⟩ = .ok 0x4400 ∧ decodeSub ⟨0x00, 0x64, 0xC6⟩ = .error .invalidBit ∧
    decodeSub ⟨0x00, 0x64, 0xC5⟩ = .error .checksumMismatch := by set_option maxRecDepth 20000 in decide

theorem witness_MeasureIgnoresOldResults :
    decodeSub ⟨fixture.image.in0, fixture.image.in1, fixture.image.in2⟩ = .ok 0x4400 ∧
    decodeSub ⟨fixture.image.in3, fixture.image.in4, fixture.image.in5⟩ = .ok 0x6400 ∧ (0x4400 : Half) ≠ 0#16 ∧
    decodeSub ⟨0x00, 0x00, 0xA1⟩ = .ok 0x0000 :=
  ⟨fixture_temperature, fixture_humidity, by decide, by set_option maxRecDepth 20000 in decide⟩

theorem witness_MeasureIsDecodeConvertAhum :
    ∃ s₁ s₂ s₃, exec (.decode .temperature) (stateOf fixture) = .next s₁ ∧ exec (.decode .humidity) s₁ = .next s₂ ∧
      exec .convert s₂ = .next s₃ := ⟨_, _, _, rfl, rfl, rfl⟩

theorem witness_MeasureGivesPhysicalMeasurement : ∃ u, exec .measure (stateOf fixture) = .next u := ⟨_, rfl⟩

theorem witness_FailedCommandIsPrecise :
    instrFormat .measure = .cmd8 ∧ Instr.measure ≠ .nop ∧
    exec .measure State.reset = .next (State.reset.withRegs (measureOp Regs.reset)) ∧
    statusOk (measureOp Regs.reset).status = false := ⟨rfl, by decide, rfl, by decide⟩

theorem witness_CommandsOverwriteStatus :
    instrFormat (.crc7 .humidity) = .cmd8 ∧ Instr.crc7 .humidity ≠ .nop ∧
    ∃ t, exec (.crc7 .humidity) (stateOf fixture) = .next t := ⟨rfl, by decide, _, rfl⟩

theorem witness_StatusFieldMeanings :
    instrFormat .ahum = .cmd8 ∧ Instr.ahum ≠ .nop ∧
    ∃ t, exec .ahum State.reset = .next t ∧ t.regs.rawT = 0#16 := ⟨rfl, by decide, _, rfl, rfl⟩

/-- A step of each register's writer that changes it. -/
theorem witness_WritersOfEachRegister :
    (after (.wr 0x05 1) fixture).map Regs.image ≠ some fixture.image ∧
    (after (.crc7 .temperature) fixture).map Regs.crcRes ≠ some fixture.crcRes ∧
    (after (.decode .temperature) fixture).map Regs.rawT ≠ some fixture.rawT ∧
    (after (.decode .humidity) fixture).map Regs.rawH ≠ some fixture.rawH ∧
    (after .convert fixture).map Regs.tempC ≠ some fixture.tempC ∧
    (after .ahum { rawRegs 1 0 with ah := 7 }).map Regs.ah ≠ some 7 := by set_option maxRecDepth 20000 in decide

theorem witness_WriteChangesOnlyItsByte :
    (0x00 : Addr) ≠ 0x08 ∧ (0x3F : Addr) ≠ 0x08 ∧ (0x05 : Addr).toNat ≤ 5 ∧
    (0x10 ≤ (0x10 : Addr).toNat ∧ (0x10 : Addr).toNat ≤ 0x13) ∧ (0x10 ≤ (0x13 : Addr).toNat ∧ (0x13 : Addr).toNat ≤ 0x13) := by
  decide

theorem witness_NextReadSeesWrite :
    (someState [.transaction 0x5355, .transaction 0x1300]).inputs
      = .transaction (busWord true 0x13 0x55) :: .transaction (busWord false 0x13 0) :: [] ∧
    (0x10 ≤ (0x13 : Addr).toNat ∧ (0x13 : Addr).toNat ≤ 0x13) := by decide

theorem witness_ReservedAddressesInert :
    (0x06 : Addr).toNat = 0x06 ∧ (0x07 : Addr).toNat = 0x07 ∧
    (0x0B ≤ (0x0B : Addr).toNat ∧ (0x0B : Addr).toNat ≤ 0x0F) ∧ (0x0B ≤ (0x0F : Addr).toNat ∧ (0x0F : Addr).toNat ≤ 0x0F) ∧
    0x1C ≤ (0x1C : Addr).toNat ∧ 0x1C ≤ (0x3F : Addr).toNat := by decide

theorem witness_ReadOnlyRegistersIgnoreWrites :
    (0x09 : Addr).toNat = 0x09 ∧ (0x0A : Addr).toNat = 0x0A ∧
    (0x14 ≤ (0x14 : Addr).toNat ∧ (0x14 : Addr).toNat ≤ 0x1B) ∧ (0x14 ≤ (0x1B : Addr).toNat ∧ (0x1B : Addr).toNat ≤ 0x1B) ∧
    (after .convert fixture).map Regs.status ≠ some fixture.status := by decide

theorem witness_RepeatedInstructionIsIdempotent : ∃ t, exec (.decode .temperature) (stateOf fixture) = .next t := ⟨_, rfl⟩

/-- A sound state that is not reset: AH saturated, a converted temperature, and a step from it. -/
theorem witness_StepKeepsSound :
    (let s : State :=
      { regs := { fixture with status := 0x21, tempC := 0xFFFFE340, ah := 0xFFFFFFFF }, port := ⟨true, some 1⟩,
        inputs := [.transaction 0x4805] }
     s.wf = true ∧ s.safe = true) := by decide

theorem witness_SafeRunNeverStops : (stateOf fixture).safe = true := by decide

/-- The last pass, the bits above the last position tested, and the highest rows of the table. -/
theorem witness_Crc7Loop : (16 ≤ 16 ∧ 23 - 16 < 8) ∧ 16 < 17 := by decide

theorem witness_OneAndTwoBitErrorsDetected : (16 : Fin 24) ≠ 0 ∧ (23 : Fin 24) ≠ 16 := by decide

/-- A waveform that idles before, between and after its words, with one wait cycle each. -/
theorem witness_WaitCyclesAreInvisible :
    let c : PortCycle := ⟨true, false, false, 0, 0⟩
    let ps := [PortPiece.low c, .held 0x4805 c, .low c, .low c, .held 0x0900 c, .low c]
    (heldWaveform (fun _ => 1) 0 ps).length = 10 ∧ heldWords ps = [0x4805, 0x0900] := by decide

/-- A cycle after a held transaction for each clause: low, changed, still high, reset. -/
theorem witness_PortBreachIsViolation :
    (⟨true, false, false, 0, 0⟩ : PortCycle).rstN = true ∧ (⟨true, false, false, 0, 0⟩ : PortCycle).req = false ∧
    (⟨true, true, true, 0x08, 0x05⟩ : PortCycle).req = true ∧ busWord true 0x08 0x05 ≠ 0x4804 ∧
    0 < (fun _ : Nat => 1) 0 := by decide

theorem witness_ResetDropsPendingTransaction :
    (⟨false, true, true, 0x08, 0x05⟩ : PortCycle).rstN = false ∧ 0 < (fun _ : Nat => 1) 0 := by decide

end Sys2Proof.Tests
end

section
/-! The registers RAW_T and RAW_H as fixed-point numbers (43_convert.md R160, R163). -/

namespace Sys2Proof.Machine

theorem fixedValue_nonneg {w : Nat} (n : Nat) (v : BitVec w) : 0 ≤ fixedValue n v :=
  div_nonneg v.toNat.cast_nonneg (by positivity)

/-- The all-ones word is the largest fixed-point number. -/
theorem fixedValue_le_max {w : Nat} (n : Nat) (v : BitVec w) : fixedValue n v ≤ (2 ^ w - 1) / 2 ^ n := by
  have toNat_le : (v.toNat : ℚ) ≤ 2 ^ w - 1 := by
    rw [le_sub_iff_add_le]
    exact_mod_cast v.isLt
  exact div_le_div_of_nonneg_right toNat_le (by positivity)

theorem kelvin_eq (t : Half) : kelvin t = (t.toNat : ℚ) / 64 := by
  norm_num [kelvin, fixedValue]

theorem relativeHumidity_eq (h : Half) : relativeHumidity h = (h.toNat : ℚ) / 512 := by
  norm_num [relativeHumidity, fixedValue]

theorem kelvin_nonneg (t : Half) : 0 ≤ kelvin t := fixedValue_nonneg 6 t

theorem relativeHumidity_nonneg (h : Half) : 0 ≤ relativeHumidity h := fixedValue_nonneg 9 h

/-- The top of Q10.6 (R160). -/
theorem kelvin_le (t : Half) : kelvin t ≤ 1023984375 / 1000000 :=
  (fixedValue_le_max 6 t).trans_eq (by norm_num)

/-- The top of Q7.9 (R163). -/
theorem relativeHumidity_le (h : Half) : relativeHumidity h ≤ 127998046875 / 1000000000 :=
  (fixedValue_le_max 9 h).trans_eq (by norm_num)

/-- Settles O22: both readings are a sixteen-bit number over a power of two, so their ranges are the one of `fixedValue`. -/
theorem rawRegistersAreFixedPoint : Obligations.RawRegistersAreFixedPoint :=
  ⟨fun v => ⟨kelvin_eq v, relativeHumidity_eq v⟩,
    fun v => ⟨kelvin_nonneg v, kelvin_le v, relativeHumidity_nonneg v, relativeHumidity_le v⟩⟩

end Sys2Proof.Machine
end

section
/-! One description of the seven commands: what a command leaves in STATUS, and which registers it can change. -/

namespace Sys2Proof.Machine

/-! ### The command an instruction runs -/

/-- What command `k` does to the registers. -/
def commandOp : Command → Regs → Regs
  | .nop => nopOp
  | .crc7 sel => crc7Op sel
  | .decode sel => decodeOp sel
  | .convert => convertOp
  | .ahum => ahumOp
  | .measure => measureOp
  | .illegal => illegalOp

theorem execute_eq_commandOp (c : Byte) (r : Regs) : execute c r = commandOp (decodeCommand c) r := by
  unfold execute
  cases decodeCommand c <;> rfl

theorem exec_commandInstr (c : Byte) (k : Command) (s : State) :
    exec (commandInstr c k) s = .next (s.withRegs (commandOp k s.regs)) := by
  cases k <;> rfl

/-- The CMD8 instructions but NOP are the instructions of the commands but NOP (R82). -/
theorem exists_command_of_cmd8 {i : Instr} (cmd8 : instrFormat i = .cmd8) (ne_nop : i ≠ .nop) :
    ∃ c k, k ≠ .nop ∧ i = commandInstr c k := by
  cases i with
  | nop => exact absurd rfl ne_nop
  | crc7 sel => exact ⟨0, .crc7 sel, by simp, rfl⟩
  | decode sel => exact ⟨0, .decode sel, by simp, rfl⟩
  | convert => exact ⟨0, .convert, by simp, rfl⟩
  | ahum => exact ⟨0, .ahum, by simp, rfl⟩
  | measure => exact ⟨0, .measure, by simp, rfl⟩
  | illegal c => exact ⟨c, .illegal, by simp, rfl⟩
  | wr a v => cases cmd8
  | rd a => cases cmd8

theorem runsCommand_commandInstr (c : Byte) (k : Command) : runsCommand (commandInstr c k) k := .inl ⟨c, rfl⟩

/-- A write to CMD executes its byte, any other write stores it (R61). -/
theorem execWr_cases (a : Addr) (v : Byte) (s : State) :
    (runsCommand (.wr a v) (decodeCommand v) ∧
      exec (.wr a v) s = .next (s.withRegs (commandOp (decodeCommand v) s.regs))) ∨
    (a ≠ cmdAddr ∧ exec (.wr a v) s = .next (s.withRegs (s.regs.store a v))) := by
  have exec_wr : exec (.wr a v) s = .next (s.withRegs (s.regs.write a v)) := rfl
  obtain ⟨rfl, write⟩ | ⟨ne_cmd, write⟩ := s.regs.write_cases a v
  · exact .inl ⟨.inr ⟨v, rfl, rfl⟩, by rw [exec_wr, write, execute_eq_commandOp]⟩
  · exact .inr ⟨ne_cmd, by rw [exec_wr, write]⟩

/-- Every instruction runs a command, stores a byte at an address other than CMD, or reads one. -/
theorem exec_cases (i : Instr) (s : State) :
    (∃ k, runsCommand i k ∧ exec i s = .next (s.withRegs (commandOp k s.regs))) ∨
    (∃ a v, i = .wr a v ∧ a ≠ cmdAddr ∧ exec i s = .next (s.withRegs (s.regs.store a v))) ∨
    (∃ a, i = .rd a ∧ exec i s = .next (s.withRdata (s.regs.read a))) := by
  by_cases nop : i = .nop
  · exact .inl ⟨.nop, .inl ⟨0, nop⟩, nop ▸ rfl⟩
  cases format : instrFormat i with
  | cmd8 =>
    obtain ⟨c, k, -, rfl⟩ := exists_command_of_cmd8 format nop
    exact .inl ⟨k, runsCommand_commandInstr c k, exec_commandInstr c k s⟩
  | bus15 =>
    cases i with
    | wr a v =>
      obtain ⟨runs, eq⟩ | ⟨ne_cmd, eq⟩ := execWr_cases a v s
      · exact .inl ⟨_, runs, eq⟩
      · exact .inr (.inl ⟨a, v, rfl, ne_cmd, eq⟩)
    | rd a => exact .inr (.inr ⟨a, rfl, rfl⟩)
    | _ => cases format

/-! ### Completing with an AH result -/

@[simp] theorem Regs.completeAh_image (r : Regs) (a : AhResult) : (r.completeAh a).image = r.image := by
  obtain ⟨-, eq⟩ | ⟨q, -, eq⟩ := r.completeAh_cases a <;> simp [eq]

@[simp] theorem Regs.completeAh_status (r : Regs) (a : AhResult) :
    (r.completeAh a).status = statusComplete a.valid a.ovf a.dom := by
  obtain ⟨-, eq⟩ | ⟨q, -, eq⟩ := r.completeAh_cases a <;> simp [eq]

@[simp] theorem Regs.completeAh_crcRes (r : Regs) (a : AhResult) : (r.completeAh a).crcRes = r.crcRes := by
  obtain ⟨-, eq⟩ | ⟨q, -, eq⟩ := r.completeAh_cases a <;> simp [eq]

@[simp] theorem Regs.completeAh_rawT (r : Regs) (a : AhResult) : (r.completeAh a).rawT = r.rawT := by
  obtain ⟨-, eq⟩ | ⟨q, -, eq⟩ := r.completeAh_cases a <;> simp [eq]

@[simp] theorem Regs.completeAh_rawH (r : Regs) (a : AhResult) : (r.completeAh a).rawH = r.rawH := by
  obtain ⟨-, eq⟩ | ⟨q, -, eq⟩ := r.completeAh_cases a <;> simp [eq]

@[simp] theorem Regs.completeAh_tempC (r : Regs) (a : AhResult) : (r.completeAh a).tempC = r.tempC := by
  obtain ⟨-, eq⟩ | ⟨q, -, eq⟩ := r.completeAh_cases a <;> simp [eq]

/-! ### What a command leaves in STATUS -/

/-- What `r'` says after command `k` (not NOP) on `r`: one case for each way a command ends (R31). -/
inductive CommandOutcome (k : Command) (r r' : Regs) : Prop
  | plain (runs : (∃ sel, k = .crc7 sel) ∨ (∃ sel, k = .decode sel) ∨ k = .convert) (status : r'.status = 0x01)
  | ahValue (runs : k = .ahum ∨ k = .measure) (rawT : r'.rawT ≠ 0#16) (status : r'.status = 0x11)
  | ahSaturated (runs : k = .ahum ∨ k = .measure) (rawT : r'.rawT ≠ 0#16) (ah : r'.ah = 0xFFFFFFFF)
      (status : r'.status = 0x21)
  | ahNoValue (runs : k = .ahum ∨ k = .measure) (rawT : r'.rawT = 0#16) (ah : r'.ah = r.ah) (status : r'.status = 0x41)
  | decodeError (runs : (∃ sel, k = .decode sel) ∨ k = .measure)
      (status : r'.status ∈ ([0x02, 0x0A, 0x04, 0x0C] : List Byte))
  | illegal (runs : k = .illegal) (status : r'.status = 0x06)

/-- What STATUS says after an error of DecodeSub (R24 to R30). -/
theorem decodeError_fields : ∀ v ∈ ([0x02, 0x0A, 0x04, 0x0C] : List Byte),
    statusOk v = false ∧ (statusErr v = 1 ∨ statusErr v = 2) ∧ statusAhValid v = false ∧ statusAhOvf v = false ∧
    statusAhDom v = false ∧ v[7] = false := by decide

/-- The two errors of DecodeSub, in either sub-block (R303). -/
theorem statusRaise_mem_of_decodeSub_error {sb : SubBlock} {e : CmdError} (error : decodeSub sb = .error e) (sel : Sel) :
    statusRaise e sel ∈ ([0x02, 0x0A, 0x04, 0x0C] : List Byte) := by
  obtain rfl | rfl := decodeSub_error error <;> cases sel <;> simp

/-- AhCompute's three kinds of result, as AHUM and MEASURE leave them in the registers (R172, R173, R176). -/
theorem completeAh_ahCompute_outcome {k : Command} (runs : k = .ahum ∨ k = .measure) {r r' : Regs} (h : Half)
    (ah : r'.ah = r.ah) : CommandOutcome k r (r'.completeAh (ahCompute r'.rawT h)) := by
  obtain ⟨t, eq⟩ | ⟨t, -, eq⟩ | ⟨t, -, -, eq⟩ | ⟨t, -, -, eq⟩ := ahCompute_cases r'.rawT h
  · exact .ahNoValue runs (by simpa using t) (by simp [eq, Regs.completeAh, ah]) (by simp [eq])
  · exact .ahValue runs (by simpa using t) (by simp [eq])
  · exact .ahSaturated runs (by simpa using t) (by simp [eq, Regs.completeAh]) (by simp [eq])
  · exact .ahValue runs (by simpa using t) (by simp [eq])

theorem commandOp_outcome {k : Command} (ne_nop : k ≠ .nop) (r : Regs) : CommandOutcome k r (commandOp k r) := by
  cases k with
  | nop => exact absurd rfl ne_nop
  | crc7 sel => exact .plain (.inl ⟨sel, rfl⟩) rfl
  | decode sel =>
    obtain ⟨e, error, eq⟩ | ⟨v, -, eq⟩ := decodeOp_cases sel r
    · exact .decodeError (.inl ⟨sel, rfl⟩) (by
        simpa only [commandOp, eq, Regs.raise_status] using statusRaise_mem_of_decodeSub_error error sel)
    · exact .plain (.inr (.inl ⟨sel, rfl⟩)) (by simp [commandOp, eq])
  | convert => exact .plain (.inr (.inr rfl)) rfl
  | ahum => exact completeAh_ahCompute_outcome (.inl rfl) r.rawH rfl
  | measure =>
    obtain ⟨e, error, eq⟩ | ⟨t, e, -, error, eq⟩ | ⟨t, h, -, -, eq⟩ := measureOp_cases r
    · exact .decodeError (.inr rfl) (by
        simpa only [commandOp, eq, Regs.raise_status] using statusRaise_mem_of_decodeSub_error error .temperature)
    · exact .decodeError (.inr rfl) (by
        simpa only [commandOp, eq, Regs.raise_status] using statusRaise_mem_of_decodeSub_error error .humidity)
    · simp only [commandOp, eq]
      exact completeAh_ahCompute_outcome (r' := ((r.setRawT t).setRawH h).setTempC (celsiusWord t)) (.inr rfl) h rfl
  | illegal => exact .illegal rfl rfl

/-- The nine values a command leaves (R31). -/
theorem CommandOutcome.status_mem {k : Command} {r r' : Regs} (outcome : CommandOutcome k r r') :
    r'.status ∈ ([0x01, 0x11, 0x21, 0x41, 0x02, 0x0A, 0x04, 0x0C, 0x06] : List Byte) := by
  cases outcome with
  | decodeError _ status => simp only [List.mem_cons, List.not_mem_nil] at status ⊢; tauto
  | _ => simp [*]

theorem CommandOutcome.ah_eq_of_ovf {k : Command} {r r' : Regs} (outcome : CommandOutcome k r r') :
    statusAhOvf r'.status = true → r'.ah = 0xFFFFFFFF := by
  cases outcome with
  | ahSaturated _ _ ah _ => exact fun _ => ah
  | decodeError _ status => simp [decodeError_fields _ status]
  | _ => simp [*, statusAhOvf]

/-- No command reads the old STATUS, and all but NOP replace it (R309). -/
theorem commandOp_setStatus {k : Command} (ne_nop : k ≠ .nop) (r : Regs) (v : Byte) :
    commandOp k (r.setStatus v) = commandOp k r := by
  have completeAh_setStatus (r : Regs) (a : AhResult) : (r.setStatus v).completeAh a = r.completeAh a := by
    unfold Regs.completeAh
    cases a.write <;> rfl
  cases k with
  | nop => exact absurd rfl ne_nop
  | crc7 sel => rfl
  | decode sel =>
    simp only [commandOp, decodeOp, Regs.setStatus_image]
    cases decodeSub (r.image.sub sel) <;> cases sel <;> rfl
  | convert => rfl
  | ahum => exact completeAh_setStatus r _
  | measure =>
    simp only [commandOp, measureOp, Regs.setStatus_image]
    cases decodeSub (r.image.sub .temperature) with
    | error e => rfl
    | ok t =>
      cases decodeSub (r.image.sub .humidity) with
      | error e => rfl
      | ok h => exact completeAh_setStatus (((r.setRawT t).setRawH h).setTempC (celsiusWord t)) _
  | illegal => rfl

/-! ### Which registers a command can change -/

/-- A command that completes says OK (R24, R103). -/
@[simp] theorem statusOk_complete (v o d : Bool) : statusOk (statusComplete v o d) = true := by
  revert v o d; decide

@[simp] theorem Regs.setRaw_image (r : Regs) (sel : Sel) (v : Half) : (r.setRaw sel v).image = r.image := by
  cases sel <;> rfl

@[simp] theorem Regs.setRaw_crcRes (r : Regs) (sel : Sel) (v : Half) : (r.setRaw sel v).crcRes = r.crcRes := by
  cases sel <;> rfl

@[simp] theorem Regs.setRaw_tempC (r : Regs) (sel : Sel) (v : Half) : (r.setRaw sel v).tempC = r.tempC := by
  cases sel <;> rfl

@[simp] theorem Regs.setRaw_ah (r : Regs) (sel : Sel) (v : Half) : (r.setRaw sel v).ah = r.ah := by
  cases sel <;> rfl

/-- No command writes the image (R22). -/
theorem commandOp_image (k : Command) (r : Regs) : (commandOp k r).image = r.image := by
  cases k with
  | decode sel => obtain ⟨e, -, eq⟩ | ⟨v, -, eq⟩ := decodeOp_cases sel r <;> simp [commandOp, eq]
  | ahum => exact r.completeAh_image _
  | measure => obtain ⟨e, -, eq⟩ | ⟨t, e, -, -, eq⟩ | ⟨t, h, -, -, eq⟩ := measureOp_cases r <;> simp [commandOp, eq]
  | _ => rfl

/-- CRC7 alone writes CRC_RES, and writes seven bits (R32). -/
theorem commandOp_crcRes_cases (k : Command) (r : Regs) :
    (commandOp k r).crcRes = r.crcRes ∨ (∃ sel, k = .crc7 sel) ∧ (commandOp k r).crcRes.getLsbD 7 = false := by
  cases k with
  | crc7 sel =>
    refine .inr ⟨⟨sel, rfl⟩, ?_⟩
    show (0#1 ++ crc7 (extract (r.image.sub sel)).v17 : Byte).getLsbD 7 = false
    rw [BitVec.getLsbD_append]
    simp
  | decode sel => obtain ⟨e, -, eq⟩ | ⟨v, -, eq⟩ := decodeOp_cases sel r <;> simp [commandOp, eq]
  | ahum => exact .inl (r.completeAh_crcRes _)
  | measure => obtain ⟨e, -, eq⟩ | ⟨t, e, -, -, eq⟩ | ⟨t, h, -, -, eq⟩ := measureOp_cases r <;> simp [commandOp, eq]
  | _ => exact .inl rfl

/-- RAW_T is written only by a DECODE of temperature or a MEASURE that completes (R33). -/
theorem commandOp_rawT_cases (k : Command) (r : Regs) :
    (commandOp k r).rawT = r.rawT ∨
    (k = .decode .temperature ∨ k = .measure) ∧ statusOk (commandOp k r).status = true := by
  cases k with
  | decode sel =>
    obtain ⟨e, -, eq⟩ | ⟨v, -, eq⟩ := decodeOp_cases sel r
    · exact .inl (by simp [commandOp, eq])
    · cases sel with
      | temperature => exact .inr ⟨.inl rfl, by simp only [commandOp, eq, Regs.complete_status, statusOk_complete]⟩
      | humidity => exact .inl (by simp [commandOp, eq, Regs.setRaw])
  | ahum => exact .inl (r.completeAh_rawT _)
  | measure => obtain ⟨e, -, eq⟩ | ⟨t, e, -, -, eq⟩ | ⟨t, h, -, -, eq⟩ := measureOp_cases r <;> simp [commandOp, eq]
  | _ => exact .inl rfl

/-- RAW_H is written only by a DECODE of humidity or a MEASURE that completes (R34). -/
theorem commandOp_rawH_cases (k : Command) (r : Regs) :
    (commandOp k r).rawH = r.rawH ∨
    (k = .decode .humidity ∨ k = .measure) ∧ statusOk (commandOp k r).status = true := by
  cases k with
  | decode sel =>
    obtain ⟨e, -, eq⟩ | ⟨v, -, eq⟩ := decodeOp_cases sel r
    · exact .inl (by simp [commandOp, eq])
    · cases sel with
      | temperature => exact .inl (by simp [commandOp, eq, Regs.setRaw])
      | humidity => exact .inr ⟨.inl rfl, by simp only [commandOp, eq, Regs.complete_status, statusOk_complete]⟩
  | ahum => exact .inl (r.completeAh_rawH _)
  | measure => obtain ⟨e, -, eq⟩ | ⟨t, e, -, -, eq⟩ | ⟨t, h, -, -, eq⟩ := measureOp_cases r <;> simp [commandOp, eq]
  | _ => exact .inl rfl

/-- TEMP_C is written only by CONVERT and MEASURE, with a converted temperature (R35). -/
theorem commandOp_tempC_cases (k : Command) (r : Regs) :
    (commandOp k r).tempC = r.tempC ∨ (k = .convert ∨ k = .measure) ∧ ∃ t, (commandOp k r).tempC = celsiusWord t := by
  cases k with
  | decode sel => obtain ⟨e, -, eq⟩ | ⟨v, -, eq⟩ := decodeOp_cases sel r <;> simp [commandOp, eq]
  | convert => exact .inr ⟨.inl rfl, r.rawT, rfl⟩
  | ahum => exact .inl (r.completeAh_tempC _)
  | measure => obtain ⟨e, -, eq⟩ | ⟨t, e, -, -, eq⟩ | ⟨t, h, -, -, eq⟩ := measureOp_cases r <;> simp [commandOp, eq]
  | _ => exact .inl rfl

/-- AH is written only by AHUM and MEASURE (R36). -/
theorem commandOp_ah_cases (k : Command) (r : Regs) :
    (commandOp k r).ah = r.ah ∨ k = .ahum ∨ k = .measure := by
  cases k with
  | decode sel => obtain ⟨e, -, eq⟩ | ⟨v, -, eq⟩ := decodeOp_cases sel r <;> simp [commandOp, eq]
  | ahum => exact .inr (.inl rfl)
  | measure => exact .inr (.inr rfl)
  | _ => exact .inl rfl

end Sys2Proof.Machine
end

section
/-! The statements on the state: soundness, the writers of each register, STATUS after a command, and reset. -/

namespace Sys2Proof.Machine

/-! ### Soundness is kept -/

/-- A command that is not NOP makes STATUS sound whatever it was; the other registers it keeps or writes soundly. -/
theorem commandOp_keeps_wf (k : Command) {r : Regs} (wf : r.wf = true) : (commandOp k r).wf = true := by
  by_cases nop : k = .nop
  · exact nop ▸ wf
  rw [Regs.wf_iff] at wf ⊢
  obtain ⟨-, crcRes, tempC, -⟩ := wf
  have outcome := commandOp_outcome nop r
  refine ⟨List.mem_cons_of_mem 0x00 outcome.status_mem, ?_, ?_, outcome.ah_eq_of_ovf⟩
  · obtain eq | ⟨-, bit⟩ := commandOp_crcRes_cases k r
    · exact eq ▸ crcRes
    · exact bit
  · obtain eq | ⟨-, t, eq⟩ := commandOp_tempC_cases k r
    · exact eq ▸ tempC
    · exact .inr (eq ▸ isCelsiusWord_celsiusWord t)

/-- Soundness does not speak of IN, RAW_T and RAW_H, the only registers a store writes. -/
theorem store_keeps_wf {r : Regs} (a : Addr) (v : Byte) (wf : r.wf = true) : (r.store a v).wf = true := by
  obtain ⟨k, -, eq⟩ | ⟨k, -, eq⟩ | ⟨k, -, eq⟩ | eq := r.store_cases a v <;> rw [eq] <;> exact wf

/-- An instruction at its ack leaves a sound state, a read with its data included (R52). -/
theorem exec_keeps_wf {i : Instr} {s t : State} (wf : s.regs.wf = true) (ack : s.port.ack = true)
    (next : exec i s = .next t) : t.wf = true := by
  rw [State.wf_iff]
  obtain ⟨k, -, eq⟩ | ⟨a, v, -, -, eq⟩ | ⟨a, -, eq⟩ := exec_cases i s <;> cases eq ▸ next
  · exact ⟨commandOp_keeps_wf k wf, .inl ack⟩
  · exact ⟨store_keeps_wf a v wf, .inl ack⟩
  · exact ⟨wf, .inl ack⟩

theorem Regs.reset_wf : Regs.reset.wf = true := by decide

/-- Settles O45: the zero registers are sound, the port is quiet and no action is listed. -/
theorem resetIsSound : Obligations.ResetIsSound := by
  have wf : State.reset.wf = true := (State.wf_iff _).mpr ⟨Regs.reset_wf, .inr rfl⟩
  exact ⟨wf, by rw [State.safe, wf]; rfl⟩

/-- Settles O46: an idle step and a reset leave the port quiet, a transaction runs one instruction at its ack. -/
theorem stepKeepsSound : Obligations.StepKeepsSound := by
  intro s t wf next
  have regs_wf : s.regs.wf = true := ((State.wf_iff s).mp wf).1
  obtain ⟨-, eq⟩ | ⟨w, rest, -, eq⟩ | ⟨rest, -, eq⟩ | ⟨v, rest, -, eq⟩ := step_cases s <;> rw [eq] at next
  · cases next
    exact (State.wf_iff _).mpr ⟨regs_wf, .inr rfl⟩
  · exact exec_keeps_wf (s := s.beginTransaction rest) regs_wf rfl next
  · cases next
    exact (State.wf_iff _).mpr ⟨Regs.reset_wf, .inr rfl⟩
  · cases next

/-! ### DECODE with an error -/

theorem decodeSub_of_valid_clear {sb : SubBlock} (valid : sb.b2.getLsbD 0 = false) :
    decodeSub sb = .error .invalidBit := by
  rw [decodeSub, extract_valid, if_pos valid]

theorem decodeSub_of_checksum_ne {sb : SubBlock} (valid : sb.b2.getLsbD 0 = true)
    (checksum : sb.b2.extractLsb' 1 7 ≠ crc7 (1#1 ++ (sb.b1 ++ sb.b0))) :
    decodeSub sb = .error .checksumMismatch := by
  rw [decodeSub, extract_valid, extract_chk, extract_v17_of_valid valid, if_neg (by simp [valid]), if_pos checksum]

theorem exec_decode_of_error {sel : Sel} {s : State} {e : CmdError}
    (error : decodeSub (s.regs.image.sub sel) = .error e) :
    exec (.decode sel) s = .next (s.mapRegs fun r => { r with status := statusRaise e sel }) := by
  have raises : decodeOp sel s.regs = s.regs.raise e sel := by simp [decodeOp, error]
  show Host.Outcome.next (s.withRegs (decodeOp sel s.regs)) = _
  rw [raises]
  rfl

/-- Settles O19: the valid bit and the checksum give DecodeSub's error, which DECODE raises. -/
theorem decodeErrorWritesOnlyStatus : Obligations.DecodeErrorWritesOnlyStatus := by
  intro s
  refine ⟨fun valid => ?_, fun valid => ?_, fun valid checksum => ?_, fun valid checksum => ?_⟩
  · simpa using exec_decode_of_error (sel := .temperature) (decodeSub_of_valid_clear valid)
  · simpa using exec_decode_of_error (sel := .humidity) (decodeSub_of_valid_clear valid)
  · simpa using exec_decode_of_error (sel := .temperature) (decodeSub_of_checksum_ne valid checksum)
  · simpa using exec_decode_of_error (sel := .humidity) (decodeSub_of_checksum_ne valid checksum)

/-! ### STATUS after a command -/

/-- Settles O35: the command's registers do not depend on the old STATUS, and each way a command ends has its value. -/
theorem commandsOverwriteStatus : Obligations.CommandsOverwriteStatus := by
  intro i s v cmd8 ne_nop
  obtain ⟨c, k, nop, rfl⟩ := exists_command_of_cmd8 cmd8 ne_nop
  simp only [exec_commandInstr]
  constructor
  · show Host.Outcome.next (s.withRegs (commandOp k (s.regs.setStatus v))) = _
    rw [commandOp_setStatus nop]
  · rintro t ⟨⟩
    exact (commandOp_outcome nop s.regs).status_mem

/-- Settles O36: the instruction's command and the way it ended give every field. -/
theorem statusFieldMeanings : Obligations.StatusFieldMeanings := by
  intro i s t cmd8 ne_nop next
  obtain ⟨c, k, nop, rfl⟩ := exists_command_of_cmd8 cmd8 ne_nop
  rw [exec_commandInstr] at next
  cases next
  cases commandOp_outcome nop s.regs with
  | plain runs status =>
    obtain ⟨sel, rfl⟩ | ⟨sel, rfl⟩ | rfl := runs <;>
      simp [commandInstr, status, statusOk, statusErr, statusErrSub, statusAhValid, statusAhOvf, statusAhDom]
  | ahValue runs rawT status =>
    obtain rfl | rfl := runs <;>
      simp [commandInstr, status, rawT, statusOk, statusErr, statusErrSub, statusAhValid, statusAhOvf, statusAhDom]
  | ahSaturated runs rawT ah status =>
    obtain rfl | rfl := runs <;>
      simp [commandInstr, status, rawT, ah, statusOk, statusErr, statusErrSub, statusAhValid, statusAhOvf, statusAhDom]
  | ahNoValue runs rawT ah status =>
    obtain rfl | rfl := runs <;>
      simp [commandInstr, status, rawT, ah, statusOk, statusErr, statusErrSub, statusAhValid, statusAhOvf, statusAhDom]
  | decodeError runs status =>
    obtain ⟨ok, err, valid, ovf, dom, bit⟩ := decodeError_fields _ status
    obtain ⟨sel, rfl⟩ | rfl := runs <;> obtain err | err := err <;> simp [commandInstr, ok, err, valid, ovf, dom, bit]
  | illegal runs status =>
    subst runs
    simp [commandInstr, status, statusOk, statusErr, statusErrSub, statusAhValid, statusAhOvf, statusAhDom]

/-! ### The writers of each register -/

theorem toNat_le_five_of_locate_input {a : Addr} : (∃ k, locate a = .input k) → a.toNat ≤ 5 := by
  revert a; decide

theorem eq_of_locate_rawT {a : Addr} : (∃ k, locate a = .rawT k) → a = 0x10 ∨ a = 0x11 := by
  revert a; decide

theorem eq_of_locate_rawH {a : Addr} : (∃ k, locate a = .rawH k) → a = 0x12 ∨ a = 0x13 := by
  revert a; decide

/-- Settles O37: a command changes only what it writes, a store only the register of its address, a read the port. -/
theorem writersOfEachRegister : Obligations.WritersOfEachRegister := by
  intro i s t next
  obtain ⟨k, runs, eq⟩ | ⟨a, v, rfl, -, eq⟩ | ⟨a, rfl, eq⟩ := exec_cases i s <;> cases eq ▸ next
  · refine ⟨(absurd (commandOp_image k s.regs) ·), fun changed => ⟨k, ?_, runs⟩, fun changed => ?_, fun changed => ?_,
      fun changed => ?_, fun changed => ?_, fun changed => ?_, (absurd rfl ·)⟩
    · rintro rfl
      exact changed rfl
    · obtain ⟨⟨sel, rfl⟩, -⟩ := (commandOp_crcRes_cases k s.regs).resolve_left changed
      exact ⟨sel, runs⟩
    · obtain ⟨rfl | rfl, ok⟩ := (commandOp_rawT_cases k s.regs).resolve_left changed
      · exact .inr ⟨.inl runs, ok⟩
      · exact .inr ⟨.inr runs, ok⟩
    · obtain ⟨rfl | rfl, ok⟩ := (commandOp_rawH_cases k s.regs).resolve_left changed
      · exact .inr ⟨.inl runs, ok⟩
      · exact .inr ⟨.inr runs, ok⟩
    · obtain ⟨rfl | rfl, -⟩ := (commandOp_tempC_cases k s.regs).resolve_left changed
      · exact .inl runs
      · exact .inr runs
    · obtain rfl | rfl := (commandOp_ah_cases k s.regs).resolve_left changed
      · exact .inl runs
      · exact .inr runs
  · obtain ⟨k, loc, store⟩ | ⟨k, loc, store⟩ | ⟨k, loc, store⟩ | store := s.regs.store_cases a v <;>
      rw [State.withRegs_regs, store]
    · simp [toNat_le_five_of_locate_input ⟨k, loc⟩]
    · obtain rfl | rfl := eq_of_locate_rawT ⟨k, loc⟩ <;> simp
    · obtain rfl | rfl := eq_of_locate_rawH ⟨k, loc⟩ <;> simp
    · simp
  · simp

/-! ### Reset -/

theorem step_of_reset {s : State} {w : BusWord} {rest : List HostAction}
    (inputs : s.inputs = .reset :: rest ∨ s.inputs = .resetDuring w :: rest) : step s = .next (s.takeReset rest) := by
  obtain eq | eq := inputs <;> simp [step, eq]

/-- Settles O8: with or without a pending transaction the step takes the reset, whose state is written out. -/
theorem resetZeroesEveryRegister : Obligations.ResetZeroesEveryRegister :=
  ⟨fun _ _ _ inputs => step_of_reset inputs, rfl⟩

end Sys2Proof.Machine
end

section
/-! The host port and the register space (20_memory.md): what a step does with the host's next action, runs that never
stop, reads and writes by address, and the waveforms of the port. -/

namespace Sys2Proof.Machine

/-! ### The step -/

theorem exec_completes (i : Instr) (s : State) :
    ∃ t, exec i s = .next t ∧ t.inputs = s.inputs ∧ t.port.ack = s.port.ack := by
  obtain ⟨r, eq⟩ | ⟨a, -, eq⟩ := exec_next i s
  · exact ⟨_, eq, rfl, rfl⟩
  · exact ⟨_, eq, rfl, rfl⟩

/-- Settles O12: exec changes only the registers or the read data. -/
theorem everyInstructionCompletes : Obligations.EveryInstructionCompletes := exec_completes

theorem step_of_transaction {s : State} {w : BusWord} {rest : List HostAction}
    (inputs : s.inputs = .transaction w :: rest) : step s = exec (decodeBus15 w) (s.beginTransaction rest) := by
  simp [step, inputs]

/-- A step takes the next action off the list, or stops on a violation (R414). -/
theorem step_completes_or_violation (s : State) :
    (∃ t, step s = .next t ∧ t.inputs = s.inputs.tail ∧ ∀ v rest, s.inputs ≠ .violation v :: rest) ∨
    (∃ v rest, s.inputs = .violation v :: rest ∧ step s = .fault (.portProtocol v)) := by
  obtain ⟨inputs, eq⟩ | ⟨w, rest, inputs, eq⟩ | ⟨rest, inputs, eq⟩ | violation := step_cases s
  · exact .inl ⟨_, eq, by simp [inputs], by simp [inputs]⟩
  · obtain ⟨t, next, kept, -⟩ := exec_completes (decodeBus15 w) (s.beginTransaction rest)
    exact .inl ⟨t, eq.trans next, by simp [kept, inputs], by simp [inputs]⟩
  · obtain inputs | ⟨w, inputs⟩ := inputs <;> exact .inl ⟨_, eq, by simp [inputs], by simp [inputs]⟩
  · exact .inr violation

/-- Settles O10: a step completes unless the next action is a violation, whose name the fault carries. -/
theorem stepStopsOnlyOnViolation : Obligations.StepStopsOnlyOnViolation := by
  intro s
  obtain ⟨t, eq, -, no_violation⟩ | ⟨v, rest, inputs, eq⟩ := step_completes_or_violation s
  · simp [eq, no_violation]
  · simp [eq, inputs, eq_comm]

/-! ### A safe run -/

theorem obeysProtocol_tail {as : List HostAction} (obeys : obeysProtocol as = true) : obeysProtocol as.tail = true := by
  rw [obeysProtocol, List.all_eq_true] at obeys ⊢
  exact fun a mem => obeys a (List.mem_of_mem_tail mem)

theorem State.safe_iff (s : State) : s.safe = true ↔ s.wf = true ∧ obeysProtocol s.inputs = true := by
  simp [State.safe]

/-- A safe state steps, to a safe state. -/
theorem step_of_safe {s : State} (safe : s.safe = true) : ∃ t, step s = .next t ∧ t.safe = true := by
  obtain ⟨wf, obeys⟩ := s.safe_iff.mp safe
  obtain ⟨t, eq, inputs, -⟩ | ⟨v, rest, inputs, -⟩ := step_completes_or_violation s
  · exact ⟨t, eq, t.safe_iff.mpr ⟨stepKeepsSound s t wf eq, inputs ▸ obeysProtocol_tail obeys⟩⟩
  · simp [inputs, obeysProtocol] at obeys

theorem run_succ_of_next {s t : State} (eq : step s = .next t) (n : Nat) :
    Host.Core.run core (n + 1) s = Host.Core.run core n t := by
  have core_eq : core.step s = .next t := eq
  simp only [Host.Core.run, core_eq]

/-- Settles O47, by induction on the number of steps. -/
theorem safeRunNeverStops : Obligations.SafeRunNeverStops := by
  intro n
  induction n with
  | zero => exact fun s safe => ⟨s, rfl, safe⟩
  | succ n ih =>
    intro s safe
    obtain ⟨t, eq, safe_t⟩ := step_of_safe safe
    obtain ⟨u, run, safe_u⟩ := ih t safe_t
    exact ⟨u, (run_succ_of_next eq n).trans run, safe_u⟩

/-! ### The transactions -/

@[simp] theorem decodeBus15_write (a : Addr) (v : Byte) : decodeBus15 (busWord true a v) = .wr a v := by
  simp [decodeBus15]

@[simp] theorem decodeBus15_read (a : Addr) (v : Byte) : decodeBus15 (busWord false a v) = .rd a := by
  simp [decodeBus15]

theorem exec_rd (a : Addr) (s : State) : exec (.rd a) s = .next (s.withRdata (s.regs.read a)) := rfl

theorem exec_wr_cmd (c : Byte) (s : State) :
    exec (.wr cmdAddr c) s = .next (s.withRegs (commandOp (decodeCommand c) s.regs)) := by
  rw [← execute_eq_commandOp]
  rfl

theorem exec_wr_store {a : Addr} (ne_cmd : a ≠ cmdAddr) (v : Byte) (s : State) :
    exec (.wr a v) s = .next (s.withRegs (s.regs.store a v)) := by
  show Host.Outcome.next (s.withRegs (s.regs.write a v)) = _
  rw [Regs.write, if_neg ne_cmd]

/-- Settles O7: both run the byte's command on the registers. -/
theorem commandWriteRunsCommand : Obligations.CommandWriteRunsCommand := fun c s =>
  (exec_wr_cmd c s).trans (exec_commandInstr c (decodeCommand c) s).symm

/-- The word of a write to CMD as a number (R91). -/
theorem or_setWidth_eq_cmdWord (c : Byte) : 0x4800#15 ||| c.setWidth 15 = cmdWord c := by
  revert c; decide

/-- Settles O6: the step decodes the word; the word of a write to CMD decodes to that write, which runs the command. -/
theorem stepRunsDecodedInstruction : Obligations.StepRunsDecodedInstruction := by
  refine ⟨fun s w rest inputs => step_of_transaction inputs, fun s c rest inputs => ?_⟩
  rw [or_setWidth_eq_cmdWord] at inputs
  rw [step_of_transaction inputs, cmdWord, decodeBus15_write]
  exact commandWriteRunsCommand c _

/-! ### Reads -/

/-- Settles O38: the address map, address by address. -/
theorem readReturnsByte : Obligations.ReadReturnsByte := by
  intro a s n r byte
  have read : r.read a = byte := by
    obtain ⟨⟨k, lt⟩⟩ := a
    interval_cases k <;> rfl
  rw [exec_rd, read]
  rfl

theorem Regs.read_reset : ∀ a, Regs.reset.read a = 0x00 := by decide

/-- Settles O9: every register byte is zero. -/
theorem resetReadsAsZero : Obligations.ResetReadsAsZero := fun a => by
  show Host.Outcome.next (State.reset.withRdata (Regs.reset.read a)) = _
  rw [Regs.read_reset]
  rfl

/-! ### Writes -/

/-- The addresses that store the byte written to them: IN0..IN5, RAW_T and RAW_H (R61). -/
def storesByte (a : Addr) : Prop := a.toNat ≤ 5 ∨ 0x10 ≤ a.toNat ∧ a.toNat ≤ 0x13

theorem locate_of_storesByte {a : Addr} (stores : storesByte a) :
    (∃ k, locate a = .input k) ∨ (∃ k, locate a = .rawT k) ∨ (∃ k, locate a = .rawH k) := by
  unfold storesByte at stores
  revert a; decide

theorem ne_cmdAddr_of_storesByte {a : Addr} (stores : storesByte a) : a ≠ cmdAddr := by
  rintro rfl
  revert stores
  unfold storesByte
  decide

/-- Every other address ignores a plain store (R56, R62). -/
theorem Regs.store_of_not_storesByte (r : Regs) {a : Addr} (ignores : ¬ storesByte a) (v : Byte) :
    r.store a v = r := by
  obtain ⟨k, loc, -⟩ | ⟨k, loc, -⟩ | ⟨k, loc, -⟩ | eq := r.store_cases a v
  · exact absurd (.inl (toNat_le_five_of_locate_input ⟨k, loc⟩)) ignores
  · obtain rfl | rfl := eq_of_locate_rawT ⟨k, loc⟩ <;> exact absurd (.inr (by decide)) ignores
  · obtain rfl | rfl := eq_of_locate_rawH ⟨k, loc⟩ <;> exact absurd (.inr (by decide)) ignores
  · exact eq

theorem exec_wr_ignored {a : Addr} (ne_cmd : a ≠ cmdAddr) (ignores : ¬ storesByte a) (v : Byte) (s : State) :
    exec (.wr a v) s = .next s := by
  rw [exec_wr_store ne_cmd, Regs.store_of_not_storesByte _ ignores]
  rfl

@[simp] theorem Regs.store_status (r : Regs) (a : Addr) (v : Byte) : (r.store a v).status = r.status := by
  obtain ⟨k, -, eq⟩ | ⟨k, -, eq⟩ | ⟨k, -, eq⟩ | eq := r.store_cases a v <;> simp [eq]

@[simp] theorem Regs.store_crcRes (r : Regs) (a : Addr) (v : Byte) : (r.store a v).crcRes = r.crcRes := by
  obtain ⟨k, -, eq⟩ | ⟨k, -, eq⟩ | ⟨k, -, eq⟩ | eq := r.store_cases a v <;> simp [eq]

@[simp] theorem Regs.store_tempC (r : Regs) (a : Addr) (v : Byte) : (r.store a v).tempC = r.tempC := by
  obtain ⟨k, -, eq⟩ | ⟨k, -, eq⟩ | ⟨k, -, eq⟩ | eq := r.store_cases a v <;> simp [eq]

@[simp] theorem Regs.store_ah (r : Regs) (a : Addr) (v : Byte) : (r.store a v).ah = r.ah := by
  obtain ⟨k, -, eq⟩ | ⟨k, -, eq⟩ | ⟨k, -, eq⟩ | eq := r.store_cases a v <;> simp [eq]

/-- Settles O39: none of the ten addresses is CMD, so the write is the store at the address's location. -/
theorem writeStoresByte : Obligations.WriteStoresByte := by
  intro s v
  refine ⟨?_, ?_, ?_, ?_, ?_, ?_, ?_, ?_, ?_, ?_⟩ <;> exact exec_wr_store (by decide) v s

/-- Settles O42: a reserved address is neither CMD nor one that stores, and the address map gives it 0x00. -/
theorem reservedAddressesInert : Obligations.ReservedAddressesInert := by
  intro a v s reserved
  constructor
  · have loc : locate a = .reserved := by revert a; decide
    rw [exec_rd, Regs.read, loc]
    rfl
  · refine exec_wr_ignored ?_ ?_ v s
    · rintro rfl
      simp [cmdAddr] at reserved
    · unfold storesByte
      omega

/-- Settles O43: the addresses are neither CMD nor ones that store, and a store keeps the four registers. -/
theorem readOnlyRegistersIgnoreWrites : Obligations.ReadOnlyRegistersIgnoreWrites := by
  refine ⟨fun a v s readOnly => exec_wr_ignored ?_ ?_ v s, fun i s t next changed => ?_⟩
  · rintro rfl
    simp [cmdAddr] at readOnly
  · unfold storesByte
    omega
  · obtain ⟨k, runs, -⟩ | ⟨a, v, -, -, eq⟩ | ⟨a, -, eq⟩ := exec_cases i s
    · exact ⟨k, runs⟩
    · cases eq ▸ next
      simp at changed
    · cases eq ▸ next
      simp at changed

/-! ### A read after a write -/

/-- The address of a location; a reserved one has many, of which this is the last. -/
def Loc.addr : Loc → Addr
  | .input k => BitVec.ofNat 6 k
  | .cmd => 0x08
  | .status => 0x09
  | .crcRes => 0x0A
  | .rawT k => BitVec.ofNat 6 (0x10 + k)
  | .rawH k => BitVec.ofNat 6 (0x12 + k)
  | .tempC k => BitVec.ofNat 6 (0x14 + k)
  | .ah k => BitVec.ofNat 6 (0x18 + k)
  | .reserved => 0x3F

theorem addr_locate : ∀ a, locate a ≠ .reserved → (locate a).addr = a := by decide

/-- No byte of a register stands at two addresses (R20). -/
theorem eq_of_locate_eq {a b : Addr} (same : locate a = locate b) (used : locate a ≠ .reserved) : a = b := by
  rw [← addr_locate a used, same, addr_locate b (same ▸ used)]

theorem Regs.read_store_same (r : Regs) {a : Addr} (stores : storesByte a) (v : Byte) : (r.store a v).read a = v := by
  obtain ⟨k, loc⟩ | ⟨k, loc⟩ | ⟨k, loc⟩ := locate_of_storesByte stores <;> simp [Regs.read, Regs.store, loc]

theorem Regs.read_store_other (r : Regs) {a b : Addr} (ne : b ≠ a) (v : Byte) : (r.store a v).read b = r.read b := by
  have apart (used : locate b ≠ .reserved) : locate b ≠ locate a := fun same => ne (eq_of_locate_eq same used)
  obtain ⟨k, loc, eq⟩ | ⟨k, loc, eq⟩ | ⟨k, loc, eq⟩ | eq := r.store_cases a v <;> rw [eq]
  · cases at_b : locate b with
    | input j => simp [Regs.read, at_b, Image.get_set_other _ v (show j ≠ k by simpa [at_b, loc] using apart)]
    | _ => simp [Regs.read, at_b]
  · cases at_b : locate b with
    | rawT j => simp [Regs.read, at_b, byteOf_withByte_other _ v (show j ≠ k by simpa [at_b, loc] using apart)]
    | _ => simp [Regs.read, at_b]
  · cases at_b : locate b with
    | rawH j => simp [Regs.read, at_b, byteOf_withByte_other _ v (show j ≠ k by simpa [at_b, loc] using apart)]
    | _ => simp [Regs.read, at_b]

/-- Settles O40: the write is a store, and locations of different addresses do not overlap. -/
theorem writeChangesOnlyItsByte : Obligations.WriteChangesOnlyItsByte := fun a v s ne_cmd =>
  ⟨s.withRegs (s.regs.store a v), exec_wr_store ne_cmd v s, rfl, rfl,
    fun stores => s.regs.read_store_same stores v, fun _ ne => s.regs.read_store_other ne v⟩

theorem step_of_write {s : State} {a : Addr} {v : Byte} {rest : List HostAction} (ne_cmd : a ≠ cmdAddr)
    (inputs : s.inputs = .transaction (busWord true a v) :: rest) :
    step s = .next ((s.beginTransaction rest).withRegs (s.regs.store a v)) := by
  rw [step_of_transaction inputs, decodeBus15_write, exec_wr_store ne_cmd, State.beginTransaction_regs]

theorem step_of_read {s : State} {a : Addr} {d : Byte} {rest : List HostAction}
    (inputs : s.inputs = .transaction (busWord false a d) :: rest) :
    step s = .next ((s.beginTransaction rest).withRdata (s.regs.read a)) := by
  rw [step_of_transaction inputs, decodeBus15_read, exec_rd, State.beginTransaction_regs]

/-- Settles O41: the first step stores the byte, the second reads it. -/
theorem nextReadSeesWrite : Obligations.NextReadSeesWrite := by
  intro s a v rest stores inputs
  have read_back : (s.regs.store a v).read a = v := s.regs.read_store_same stores v
  exact ⟨_, _, step_of_write (ne_cmdAddr_of_storesByte stores) inputs, step_of_read rfl, rfl,
    congrArg (fun b => PortOut.mk true (some b)) read_back, rfl⟩

/-! ### An instruction repeated -/

theorem exec_of_runsCommand {i : Instr} {k : Command} (runs : runsCommand i k) (s : State) :
    exec i s = .next (s.withRegs (commandOp k s.regs)) := by
  obtain ⟨c, rfl⟩ | ⟨c, rfl, rfl⟩ := runs
  · exact exec_commandInstr c k s
  · exact exec_wr_cmd c s

theorem Regs.completeAh_completeAh (r : Regs) (a : AhResult) : (r.completeAh a).completeAh a = r.completeAh a := by
  unfold Regs.completeAh
  cases a.write <;> rfl

/-- A command's operands are none of the registers it writes, but for an AH it keeps. -/
theorem commandOp_commandOp (k : Command) (r : Regs) : commandOp k (commandOp k r) = commandOp k r := by
  cases k with
  | decode sel =>
    obtain ⟨e, error, eq⟩ | ⟨v, ok, eq⟩ := decodeOp_cases sel r <;> simp only [commandOp, eq]
    · simp only [decodeOp, Regs.raise_image, error]
      rfl
    · simp only [decodeOp, Regs.complete_image, Regs.setRaw_image, ok]
      cases sel <;> rfl
  | ahum =>
    simp only [commandOp, ahumOp, Regs.completeAh_rawT, Regs.completeAh_rawH, Regs.completeAh_completeAh]
  | measure =>
    obtain ⟨e, error, eq⟩ | ⟨t, e, ok, error, eq⟩ | ⟨t, h, okT, okH, eq⟩ := measureOp_cases r <;>
      simp only [commandOp, eq]
    · simp only [measureOp, Regs.raise_image, error]
      rfl
    · simp only [measureOp, Regs.raise_image, ok, error]
      rfl
    · simp only [measureOp, Regs.completeAh_image, Regs.setTempC_image, Regs.setRawH_image,
        Regs.setRawT_image, okT, okH]
      unfold Regs.completeAh
      cases (ahCompute t h).write <;> rfl
  | _ => rfl

theorem Image.set_set (m : Image) (k : Fin 6) (v : Byte) : (m.set k v).set k v = m.set k v := by
  fin_cases k <;> rfl

theorem withByte_withByte (v : Half) (k : Fin 2) (b : Byte) : withByte (withByte v k b) k b = withByte v k b := by
  fin_cases k <;> simp [withByte]

theorem Regs.store_store (r : Regs) (a : Addr) (v : Byte) : (r.store a v).store a v = r.store a v := by
  obtain ⟨k, loc, eq⟩ | ⟨k, loc, eq⟩ | ⟨k, loc, eq⟩ | eq := r.store_cases a v <;> rw [eq]
  · simp [Regs.store, loc, Image.set_set, Regs.setImage]
  · simp [Regs.store, loc, withByte_withByte, Regs.setRawT]
  · simp [Regs.store, loc, withByte_withByte, Regs.setRawH]
  · exact eq

/-- Settles O44: commands and stores are idempotent on the registers, and a read leaves the register it read. -/
theorem repeatedInstructionIsIdempotent : Obligations.RepeatedInstructionIsIdempotent := by
  intro i s t next
  obtain ⟨k, runs, eq⟩ | ⟨a, v, rfl, ne_cmd, eq⟩ | ⟨a, rfl, eq⟩ := exec_cases i s <;> cases eq ▸ next
  · rw [exec_of_runsCommand runs, State.withRegs_regs, commandOp_commandOp]
    rfl
  · rw [exec_wr_store ne_cmd, State.withRegs_regs, Regs.store_store]
    rfl
  · rfl

/-! ### Waveforms of the port -/

/-- Settles O54, by induction on the pieces of the waveform. -/
theorem waitCyclesAreInvisible : Obligations.WaitCyclesAreInvisible := by
  intro wait n ps
  induction ps generalizing n with
  | nil => rfl
  | cons piece rest ih =>
    cases piece with
    | low c => exact (portActions_idle wait n c.low _ rfl rfl).trans (ih n)
    | held w c =>
      rw [heldWaveform, portActions_hold_acked, portActions_release wait (n + 1) c.low _ rfl rfl, ih]
      rfl

section
variable (wait : Nat → Nat) (n : Nat) {c : PortCycle} (cs : List PortCycle) (out_of_reset : c.rstN = true)
include out_of_reset

theorem portActions_pending_dropped (w : BusWord) (left : Nat) (released : c.req = false) :
    portActions wait n (.pending w left) (c :: cs) = [.violation .requestDropped] := by
  simp [portActions, portCycle, out_of_reset, released]

theorem portActions_pending_changed {w : BusWord} (left : Nat) (requested : c.req = true) (changed : c.word ≠ w) :
    portActions wait n (.pending w left) (c :: cs) = [.violation .signalsChanged] := by
  simp [portActions, portCycle, out_of_reset, requested, changed]

theorem portActions_acked_requested (requested : c.req = true) :
    portActions wait n .acked (c :: cs) = [.violation .requestNotReleased] := by
  simp [portActions, portCycle, out_of_reset, requested]

end

/-- Settles O55: before its ack a held request is pending, after it the port has acked; each phase has its breaches. -/
theorem portBreachIsViolation : Obligations.PortBreachIsViolation := by
  intro wait n k w c cs out_of_reset
  refine ⟨fun early released => ?_, fun early requested changed => ?_, fun requested => ?_⟩
  · rw [portActions_hold wait w _ early, portActions_pending_dropped wait n cs out_of_reset w _ released]
  · rw [portActions_hold wait w _ early, portActions_pending_changed wait n cs out_of_reset _ requested changed]
  · rw [portActions_hold_acked, portActions_acked_requested wait (n + 1) cs out_of_reset requested]

end Sys2Proof.Machine
end

section
/-! The encoding (30_encoding.md): which CMD8 bytes are legal, that decoding and encoding undo each other, what the
statements of a host program stand for, and where the bits of a sub-block go. -/

namespace Sys2Proof.Machine

/-! ### The CMD8 bytes -/

/-- The legal bytes (R83). -/
def legalBytes : List Byte := [0x00, 0x01, 0x02, 0x03, 0x04, 0x05, 0x09, 0x0A]

/-- The three conditions of R83. -/
theorem cmdLegal_iff (c : Byte) :
    cmdLegal c = true ↔
      c.extractLsb' 4 4 = 0 ∧ (c.extractLsb' 0 3).toNat ≤ 5 ∧
        (c.getLsbD 3 = false ∨ c.extractLsb' 0 3 = 1 ∨ c.extractLsb' 0 3 = 2) := by
  simp [cmdLegal, cmdRsvd, cmdOp, cmdSel, BitVec.le_def, and_assoc, or_assoc]

theorem cmdLegal_iff_mem : ∀ c : Byte, cmdLegal c = true ↔ c ∈ legalBytes := by decide

theorem decodeCommand_of_illegal {c : Byte} (illegal : cmdLegal c = false) : decodeCommand c = .illegal := by
  simp [decodeCommand, illegal]

theorem decodeCmd8_of_illegal {c : Byte} (illegal : cmdLegal c = false) : decodeCmd8 c = .illegal c := by
  rw [decodeCmd8, decodeCommand_of_illegal illegal]
  rfl

/-- A legal byte is the encoding of a command that is not the illegal one. -/
theorem decodeCmd8_of_mem_legalBytes : ∀ c ∈ legalBytes,
    decodeCmd8 c ≠ .illegal c ∧ (decodeCmd8 c).wellFormed = true ∧ encode (decodeCmd8 c) = [c] := by decide

theorem decodeCmd8_eq_illegal_iff (c : Byte) : decodeCmd8 c = .illegal c ↔ cmdLegal c = false := by
  refine ⟨fun eq => ?_, decodeCmd8_of_illegal⟩
  by_contra legal
  rw [Bool.not_eq_false, cmdLegal_iff_mem] at legal
  exact (decodeCmd8_of_mem_legalBytes c legal).1 eq

theorem decodeCmd8_ne_illegal_iff (c : Byte) : decodeCmd8 c ≠ .illegal c ↔ cmdLegal c = true := by
  rw [ne_eq, decodeCmd8_eq_illegal_iff, Bool.not_eq_false]

/-- Every byte decodes to an instruction that encodes to it (R89). -/
theorem encode_decodeCmd8 (c : Byte) : (decodeCmd8 c).wellFormed = true ∧ encode (decodeCmd8 c) = [c] := by
  cases legal : cmdLegal c with
  | true => exact (decodeCmd8_of_mem_legalBytes c ((cmdLegal_iff_mem c).mp legal)).2
  | false =>
    rw [decodeCmd8_of_illegal legal]
    exact ⟨by simp [Instr.wellFormed, legal], rfl⟩

theorem commandOp_illegal (r : Regs) : commandOp .illegal r = { r with status := 0x06 } := by
  show r.raise .illegalCommand .temperature = _
  rw [Regs.raise_eq, statusRaise_illegal]
  rfl

/-- Settles O3: legality is the three conditions, met by eight bytes; the bytes that do not meet them run the illegal
command. -/
theorem legalCommandBytes : Obligations.LegalCommandBytes := by
  refine ⟨fun c => ?_, fun c => ?_, ?_, fun c s illegal => ?_⟩
  · rw [decodeCmd8_ne_illegal_iff, cmdLegal_iff]
  · rw [decodeCmd8_ne_illegal_iff, cmdLegal_iff_mem]
    rfl
  · simp only [decodeCmd8_eq_illegal_iff]
    set_option maxRecDepth 2000 in decide
  · rw [decodeCmd8_eq_illegal_iff] at illegal
    show exec (.wr cmdAddr c) s = _
    rw [exec_wr_cmd, decodeCommand_of_illegal illegal, commandOp_illegal]
    rfl

/-- Settles O4: the thirteen words, evaluated. -/
theorem wordsOfTheSpecDecode : Obligations.WordsOfTheSpecDecode := by
  unfold Obligations.WordsOfTheSpecDecode
  decide

/-! ### Decoding and encoding -/

/-- A CMD8 instruction is the reading of its one byte (R82). -/
theorem decode_cmd8 {c : Byte} {i : Instr} (read : decodeCmd8 c = i) (rest : List Byte) :
    decode .cmd8 ([c] ++ rest) = .ok (i, rest) := read ▸ rfl

/-- Settles O1: the constructors of CMD8 by their byte, those of BUS15 by their word. -/
theorem decodeOfEncodeIsIdentity : Obligations.DecodeOfEncodeIsIdentity := by
  intro i rest wf
  cases i with
  | nop => exact decode_cmd8 (by decide) rest
  | crc7 sel => exact decode_cmd8 (by cases sel <;> decide) rest
  | decode sel => exact decode_cmd8 (by cases sel <;> decide) rest
  | convert => exact decode_cmd8 (by decide) rest
  | ahum => exact decode_cmd8 (by decide) rest
  | measure => exact decode_cmd8 (by decide) rest
  | illegal c => exact decode_cmd8 (decodeCmd8_of_illegal (by simpa [Instr.wellFormed] using wf)) rest
  | wr a v => rw [instrFormat, encode, decode_busBytes, decodeBus15_write]
  | rd a => rw [instrFormat, encode, decode_busBytes, decodeBus15_read]

theorem decodeBus15_of_write {w : BusWord} (we : busWe w = true) : decodeBus15 w = .wr (busAddr w) (busData w) := by
  simp [decodeBus15, we]

theorem decodeBus15_of_read {w : BusWord} (we : busWe w = false) : decodeBus15 w = .rd (busAddr w) := by
  simp [decodeBus15, we]

theorem wellFormed_decodeBus15 (w : BusWord) : (decodeBus15 w).wellFormed = true := by
  cases we : busWe w with
  | true => rw [decodeBus15_of_write we]; rfl
  | false => rw [decodeBus15_of_read we]; rfl

/-- The read word of an address is any word of that address with we and data masked out (R90). -/
theorem busWord_read_eq_and (w : BusWord) : busWord false (busAddr w) 0 = w &&& 0x3F00 := by
  have we : busWe (w &&& 0x3F00) = false := by simp [busWe]
  have addr : busAddr (w &&& 0x3F00) = busAddr w := by
    rw [busAddr, BitVec.extractLsb'_and]
    exact BitVec.and_allOnes
  have data : busData (w &&& 0x3F00) = 0 := by
    rw [busData, BitVec.extractLsb'_and]
    exact BitVec.and_zero
  rw [← busWord_fields (w &&& 0x3F00), we, addr, data]

/-- Settles O2: a byte is legal or the operand of the illegal instruction; a word is its three
fields, of which a read drops the data. -/
theorem encodeOfDecodeIsIdentity : Obligations.EncodeOfDecodeIsIdentity := by
  refine ⟨encode_decodeCmd8, fun w => ⟨wellFormed_decodeBus15 w, fun we => ?_, fun we => ?_⟩⟩
  · have fields := busWord_fields w
    rw [show busWe w = true from we] at fields
    rw [decodeBus15_of_write we, encode, fields]
    exact ⟨rfl, rfl⟩
  · rw [decodeBus15_of_read we, encode, busWord_read_eq_and]
    exact ⟨rfl, rfl⟩

/-! ### Host programs (R91) -/

/-- A transaction word as a number: each field shifted to its place (R90). -/
theorem busWord_eq_or (we : Bool) (a : Addr) (v : Byte) :
    busWord we a v = (BitVec.ofBool we).setWidth 15 <<< 14 ||| a.setWidth 15 <<< 8 ||| v.setWidth 15 := by
  apply BitVec.eq_of_getLsbD_eq
  intro i hi
  rw [busWord, BitVec.getLsbD_append, BitVec.getLsbD_append]
  interval_cases i <;> simp

theorem wrWord_eq_or (a : Addr) (v : Byte) : wrWord a v = 0x4000#15 ||| a.setWidth 15 <<< 8 ||| v.setWidth 15 :=
  busWord_eq_or true a v

theorem rdWord_eq_shift (a : Addr) : rdWord a = a.setWidth 15 <<< 8 := by
  rw [rdWord, busWord_eq_or]
  simp

/-- A 32-bit register is its four bytes (R54). -/
theorem assemble32_bytes (v : Word) :
    assemble32 (v.extractLsb' 0 8) (v.extractLsb' 8 8) (v.extractLsb' 16 8) (v.extractLsb' 24 8) = v := by
  have upper_two : v.extractLsb' 24 8 ++ v.extractLsb' 16 8 = v.extractLsb' 16 16 :=
    BitVec.extractLsb'_append_extractLsb'_eq_extractLsb' rfl
  have upper_three : v.extractLsb' 16 16 ++ v.extractLsb' 8 8 = v.extractLsb' 8 24 :=
    BitVec.extractLsb'_append_extractLsb'_eq_extractLsb' rfl
  have all_four : v.extractLsb' 8 24 ++ v.extractLsb' 0 8 = v.extractLsb' 0 32 :=
    BitVec.extractLsb'_append_extractLsb'_eq_extractLsb' rfl
  rw [assemble32, upper_two, upper_three, all_four, BitVec.extractLsb'_eq_self]

/-- Settles O5: WR and RD are their words as numbers, the longer statements are lists of them, and a read value is its
bytes. -/
theorem hostSyntaxExpansions : Obligations.HostSyntaxExpansions := by
  refine ⟨fun a v => ⟨?_, ?_, rfl⟩, by decide, fun b0 b1 b2 b3 b4 b5 => ?_, fun a v => rfl, fun a => rfl,
    fun a => rfl, byteOf_one_append_zero, assemble32_bytes⟩
  · rw [expand, wrWord_eq_or]
  · rw [expand, rdWord_eq_shift]
  · simp only [expand, wrWord_eq_or]
    rfl

/-! ### Sub-blocks -/

theorem exec_crc7 (sel : Sel) (s : State) :
    exec (.crc7 sel) s = .next (s.mapRegs fun r =>
      { r with crcRes := 0#1 ++ crc7 (extract (r.image.sub sel)).v17, status := 0x01 }) := by
  show Host.Outcome.next (s.withRegs (crc7Op sel s.regs)) = _
  rw [crc7Op, Regs.complete_eq, statusComplete_plain]
  rfl

/-- Settles O15: the payload of each sub-block is the concatenation R85 gives. -/
theorem crc7WritesCrcRes : Obligations.Crc7WritesCrcRes := fun s => ⟨exec_crc7 .temperature s, exec_crc7 .humidity s⟩

/-- Settles O16: the value is the first two bytes, the checksum the third byte shifted down by one. -/
theorem subBlockBitLayout : Obligations.SubBlockBitLayout := by
  refine fun sb => ⟨fun i lt => ?_, fun i lt => ?_, extract_valid sb, extract_valid sb, rfl⟩
  · rw [extract_value, BitVec.getLsbD_append, BitVec.getLsbD_append]
    simp [lt]
  · rw [extract_chk, BitVec.getLsbD_extractLsb', decide_eq_true lt, Bool.true_and, Nat.add_comm]

end Sys2Proof.Machine
end

section
/-! NOP and the illegal command, the two that read no operand (40_dispatch.md). -/

namespace Sys2Proof.Machine

/-- The byte 0x00 is NOP (R82). -/
theorem decodeCommand_zero : decodeCommand 0x00 = .nop := by decide

theorem exec_nop (s : State) : exec .nop s = .next s := rfl

/-- Writing 0x00 to CMD is running NOP (R104). -/
theorem exec_wr_cmd_zero (s : State) : exec (.wr cmdAddr 0x00) s = .next s := by
  rw [exec_wr_cmd, decodeCommand_zero]
  rfl

/-- 0xFF is none of the nine values a command leaves in STATUS (R31). -/
theorem CommandOutcome.status_ne_ff {k : Command} {r r' : Regs} (outcome : CommandOutcome k r r') :
    r'.status ≠ 0xFF := by
  intro ff
  have ff_mem := ff ▸ outcome.status_mem
  exact absurd ff_mem (by decide)

/-- Settles O13: NOP keeps the registers, and every other command leaves one of its nine STATUS values. -/
theorem nopHasNoEffect : Obligations.NopHasNoEffect := by
  refine ⟨rfl, fun s => ⟨exec_nop s, exec_wr_cmd_zero s⟩, fun i s cmd8 ne_nop old_status => ?_⟩
  obtain ⟨c, k, nop, rfl⟩ := exists_command_of_cmd8 cmd8 ne_nop
  refine ⟨_, exec_commandInstr c k s, ?_⟩
  rw [old_status]
  exact (commandOp_outcome nop s.regs).status_ne_ff

/-- Settles O14: the byte plays no part, and the command is a STATUS write of the registers. -/
theorem illegalWritesOnlyStatus : Obligations.IllegalWritesOnlyStatus := by
  intro c s
  have runs : exec (.illegal c) s = .next (s.withRegs (commandOp .illegal s.regs)) := exec_commandInstr c .illegal s
  rw [runs, commandOp_illegal]
  rfl

end Sys2Proof.Machine
end

section
/-! The CRC7 loop (41_crc7.md R120 to R122): where its two masks stand in each pass, how many passes it takes, and what a
pass does to the working register. -/

namespace Sys2Proof.Machine

/-! ### The masks and the passes (R121) -/

/-- The generator stands shifted up by `n`, and the bit under test is its top bit. -/
structure Division.AlignedAt (d : Division) (n : Nat) : Prop where
  pol : d.pol = Config.crcPoly <<< n
  bit : d.bit = 1#24 <<< (n + 7)

theorem alignedAt_start (v : Payload) : (divisionStart v).AlignedAt 16 := ⟨rfl, rfl⟩

theorem Division.AlignedAt.pass {d : Division} {n : Nat} (aligned : d.AlignedAt (n + 1)) (le : n + 1 ≤ 16) :
    (divisionPass d).AlignedAt n := by
  have masks : ∀ n < 16, (Config.crcPoly <<< (n + 1)) >>> 1 = Config.crcPoly <<< n ∧
      (1#24 <<< (n + 1 + 7)) >>> 1 = 1#24 <<< (n + 7) := by decide
  obtain ⟨pol, bit⟩ := masks n (by omega)
  exact ⟨by rw [divisionPass, aligned.pol, pol], by rw [divisionPass, aligned.bit, bit]⟩

theorem alignedAt_iterate (v : Payload) {k : Nat} (le : k ≤ 16) :
    (divisionPass^[k] (divisionStart v)).AlignedAt (16 - k) := by
  induction k with
  | zero => exact alignedAt_start v
  | succ k ih =>
    rw [Function.iterate_succ_apply']
    exact Division.AlignedAt.pass (by rw [show 16 - (k + 1) + 1 = 16 - k by omega]; exact ih (by omega)) (by omega)

theorem divisionTest_of_bit {d : Division} {i : Nat} (bit : d.bit = 1#24 <<< i) (lt : i < 24) :
    divisionTest d = decide (7 ≤ i) := by
  have message_bits : ∀ i < 24, (1#24 <<< i &&& (0x1FFFF#24 <<< Config.crcWidth) != 0) = decide (7 ≤ i) := by decide
  rw [divisionTest, bit, message_bits i lt]

theorem Division.AlignedAt.divisionTest_eq_true {d : Division} {n : Nat} (aligned : d.AlignedAt n) (le : n ≤ 16) :
    divisionTest d = true := by
  rw [divisionTest_of_bit aligned.bit (by omega)]
  simp

/-- After the seventeenth pass the test position is the top bit of the CRC. -/
theorem bit_iterate_seventeen (v : Payload) : (divisionPass^[17] (divisionStart v)).bit = 1#24 <<< 6 := by
  rw [Function.iterate_succ_apply', divisionPass, (alignedAt_iterate v le_rfl).bit]
  rfl

theorem divisionTest_iterate_seventeen (v : Payload) : divisionTest (divisionPass^[17] (divisionStart v)) = false :=
  divisionTest_of_bit (bit_iterate_seventeen v) (by omega)

/-- With fuel enough the loop stops at the first pass before which its test fails. -/
theorem divisionRun_eq_iterate {n fuel : Nat} {d : Division} (enough : n ≤ fuel)
    (goes_on : ∀ k < n, divisionTest (divisionPass^[k] d) = true)
    (stops : divisionTest (divisionPass^[n] d) = false) : divisionRun fuel d = divisionPass^[n] d := by
  induction n generalizing fuel d with
  | zero => cases fuel with
    | zero => rfl
    | succ fuel => exact if_neg (by rw [show divisionTest d = false from stops]; decide)
  | succ n ih => cases fuel with
    | zero => omega
    | succ fuel =>
      have test : divisionTest d = true := goes_on 0 (by omega)
      rw [divisionRun, if_pos test]
      exact ih (by omega) (fun k lt => goes_on (k + 1) (by omega)) stops

theorem divisionRun_start (v : Payload) :
    divisionRun Config.workWidth (divisionStart v) = divisionPass^[17] (divisionStart v) :=
  divisionRun_eq_iterate (by decide) (fun _ lt => (alignedAt_iterate v (by omega)).divisionTest_eq_true (by omega))
    (divisionTest_iterate_seventeen v)

theorem crc7_eq_extract (v : Payload) : crc7 v = (divisionPass^[17] (divisionStart v)).work.extractLsb' 0 7 := by
  rw [crc7, divisionRun_start]

/-- The top bit of the shifted generator is not shifted out. -/
theorem getLsbD_crcPoly_shift_top {n : Nat} (le : n ≤ 16) : (Config.crcPoly <<< n).getLsbD (n + 7) = true := by
  rw [BitVec.getLsbD_shiftLeft, Nat.add_sub_cancel_left, decide_eq_true (by omega : n + 7 < 24),
    decide_eq_false (by omega : ¬ n + 7 < n)]
  rfl

theorem getLsbD_crcPoly_of_gt {i : Nat} (gt : 7 < i) : Config.crcPoly.getLsbD i = false :=
  Nat.testBit_lt_two_pow (show 0x89 < 2 ^ i from
    lt_of_lt_of_le (by decide : 0x89 < 2 ^ 8) (Nat.pow_le_pow_right two_pos gt))

theorem getLsbD_crcPoly_shift_above {n j : Nat} (above : n + 7 < j) : (Config.crcPoly <<< n).getLsbD j = false := by
  rw [BitVec.getLsbD_shiftLeft, getLsbD_crcPoly_of_gt (by omega), Bool.and_false]

/-- Settles O48: the masks are aligned in passes 0 to 16, and the loop's test holds exactly in those. -/
theorem crc7LoopRunsSeventeenPasses : Obligations.Crc7LoopRunsSeventeenPasses := by
  refine fun v => ⟨fun k le => ?_, divisionTest_iterate_seventeen v, bit_iterate_seventeen v, crc7_eq_extract v⟩
  have aligned := alignedAt_iterate v le
  have position : 16 - k + 7 = 23 - k := by omega
  refine ⟨aligned.divisionTest_eq_true (by omega), position ▸ aligned.bit, aligned.pol, ?_, fun j above => ?_⟩
  · rw [aligned.pol, ← position]
    exact getLsbD_crcPoly_shift_top (by omega)
  · rw [aligned.pol]
    exact getLsbD_crcPoly_shift_above (by omega)

/-! ### The working register (R122) -/

/-- The test of one bit (R120). -/
theorem one_shift_and_bne_zero {i : Nat} (lt : i < 24) (w : WorkReg) : (1#24 <<< i &&& w != 0) = w.getLsbD i := by
  rw [← BitVec.twoPow_eq, BitVec.twoPow_and]
  split
  next set => rw [set, bne_iff_ne]; exact (by decide : ∀ i < 24, BitVec.twoPow 24 i ≠ 0) i lt
  next clear => rw [eq_false_of_ne_true clear]; rfl

/-- A pass XORs the generator in exactly where the bit under test is set. -/
theorem Division.AlignedAt.work_pass {d : Division} {n : Nat} (aligned : d.AlignedAt n) (le : n ≤ 16) :
    (divisionPass d).work =
      if d.work.getLsbD (n + 7) then d.work ^^^ Config.crcPoly <<< n else d.work := by
  rw [divisionPass, aligned.bit, one_shift_and_bne_zero (by omega), aligned.pol]

theorem Division.AlignedAt.getLsbD_work_pass_tested {d : Division} {n : Nat} (aligned : d.AlignedAt n) (le : n ≤ 16) :
    (divisionPass d).work.getLsbD (n + 7) = false := by
  rw [aligned.work_pass le]
  split
  next set => rw [BitVec.getLsbD_xor, set, getLsbD_crcPoly_shift_top le]; rfl
  next clear => exact eq_false_of_ne_true clear

theorem Division.AlignedAt.getLsbD_work_pass_above {d : Division} {n j : Nat} (aligned : d.AlignedAt n) (le : n ≤ 16)
    (above : n + 7 < j) : (divisionPass d).work.getLsbD j = d.work.getLsbD j := by
  rw [aligned.work_pass le]
  split
  · rw [BitVec.getLsbD_xor, getLsbD_crcPoly_shift_above above, Bool.xor_false]
  · rfl

/-- After `k` passes the top `k` bits of the working register are 0. -/
theorem getLsbD_work_iterate (v : Payload) {k j : Nat} (le : k ≤ 17) (cleared : 24 ≤ k + j) :
    (divisionPass^[k] (divisionStart v)).work.getLsbD j = false := by
  induction k with
  | zero => exact BitVec.getLsbD_of_ge _ _ (by omega)
  | succ k ih =>
    have aligned := alignedAt_iterate v (show k ≤ 16 by omega)
    rw [Function.iterate_succ_apply']
    obtain tested | above : j = 16 - k + 7 ∨ 16 - k + 7 < j := by omega
    · rw [tested]
      exact aligned.getLsbD_work_pass_tested (by omega)
    · rw [aligned.getLsbD_work_pass_above (by omega) above]
      exact ih (by omega) (by omega)

theorem extract_work_iterate_seventeen (v : Payload) :
    (divisionPass^[17] (divisionStart v)).work.extractLsb' 7 17 = 0 := by
  apply BitVec.eq_of_getLsbD_eq
  intro i _
  rw [BitVec.getLsbD_extractLsb', getLsbD_work_iterate v le_rfl (by omega)]
  simp

theorem work_iterate_seventeen (v : Payload) : (divisionPass^[17] (divisionStart v)).work = 0#17 ++ crc7 v := by
  rw [crc7_eq_extract, ← BitVec.ofNat_eq_ofNat, ← extract_work_iterate_seventeen v,
    BitVec.extractLsb'_append_extractLsb'_eq_extractLsb' (Nat.zero_add 7).symm, BitVec.extractLsb'_eq_self]

/-- Settles O49: the generator's top bit clears the bit under test, and it has no bit above. -/
theorem crc7WorkingRegisterClears : Obligations.Crc7WorkingRegisterClears := by
  refine fun v => ⟨fun k le => ?_, extract_work_iterate_seventeen v, work_iterate_seventeen v⟩
  have aligned := alignedAt_iterate v le
  have position : 16 - k + 7 = 23 - k := by omega
  simp only [Function.iterate_succ_apply', ← position]
  exact ⟨aligned.getLsbD_work_pass_tested (by omega), fun j above => aligned.getLsbD_work_pass_above (by omega) above⟩

end Sys2Proof.Machine
end

section
/-! The CRC7 as a remainder of polynomials over GF(2) (R123), and its affine law (R124). -/

namespace Sys2Proof.Machine

open Polynomial (X)

/-! ### The polynomial of a word's bits -/

theorem coeff_bitsPoly {n : Nat} (w : BitVec n) (i : Nat) : (bitsPoly w).coeff i = if w.getLsbD i then 1 else 0 := by
  have term (j : Nat) : (if w.getLsbD j then (X ^ j : Polynomial (ZMod 2)) else 0).coeff i =
      if i = j then (if w.getLsbD j then 1 else 0) else 0 := by
    split <;> simp [Polynomial.coeff_X_pow]
  rw [bitsPoly, Polynomial.finsetSum_coeff]
  simp only [term, Finset.sum_ite_eq, Finset.mem_range]
  split
  · rfl
  next ge => rw [BitVec.getLsbD_of_ge _ _ (by omega)]; rfl

theorem bitsPoly_injective {n : Nat} : Function.Injective (bitsPoly (n := n)) := by
  have bit_of_coeff (w : BitVec n) (i : Nat) : w.getLsbD i = decide ((bitsPoly w).coeff i = 1) := by
    rw [coeff_bitsPoly]
    cases w.getLsbD i <;> rfl
  intro a b same
  apply BitVec.eq_of_getLsbD_eq
  intro i _
  rw [bit_of_coeff, bit_of_coeff, same]

/-- XOR of words is addition over GF(2). -/
theorem bitsPoly_xor {n : Nat} (a b : BitVec n) : bitsPoly (a ^^^ b) = bitsPoly a + bitsPoly b := by
  ext i
  rw [Polynomial.coeff_add]
  simp only [coeff_bitsPoly, BitVec.getLsbD_xor]
  cases a.getLsbD i <;> cases b.getLsbD i <;> decide

theorem bitsPoly_append {m n : Nat} (a : BitVec m) (b : BitVec n) :
    bitsPoly (a ++ b) = bitsPoly a * X ^ n + bitsPoly b := by
  ext i
  rw [Polynomial.coeff_add, Polynomial.coeff_mul_X_pow']
  simp only [coeff_bitsPoly, BitVec.getLsbD_append]
  by_cases low : i < n
  · simp [low]
  · simp [low, BitVec.getLsbD_of_ge b i (by omega)]

/-- A shift that loses no bit is multiplication by a power of x. -/
theorem bitsPoly_shiftLeft {m n : Nat} {w : BitVec m} (fits : ∀ i, w.getLsbD i = true → n + i < m) :
    bitsPoly (w <<< n) = bitsPoly w * X ^ n := by
  ext i
  rw [Polynomial.coeff_mul_X_pow']
  simp only [coeff_bitsPoly, BitVec.getLsbD_shiftLeft]
  by_cases low : i < n
  · simp [low]
  · have kept (set : w.getLsbD (i - n) = true) : i < m := by
      have := fits _ set
      omega
    simp [low, not_lt.mp low, and_iff_right_of_imp kept]

theorem bitsPoly_zero (n : Nat) : bitsPoly 0#n = 0 := by
  simp [bitsPoly]

theorem degree_bitsPoly_lt {n : Nat} (w : BitVec n) : (bitsPoly w).degree < n := by
  rw [Polynomial.degree_lt_iff_coeff_zero]
  intro i ge
  rw [coeff_bitsPoly, BitVec.getLsbD_of_ge _ _ ge]
  rfl

/-! ### The generator and the initial vector -/

theorem bitsPoly_crcPoly : bitsPoly Config.crcPoly = crcGenerator := by
  have ascending : crcGenerator = 1 + X ^ 3 + X ^ 7 := by rw [crcGenerator]; ring
  rw [ascending]
  simp [bitsPoly, Config.crcPoly, Finset.sum_range_succ]

theorem bitsPoly_crcIvec : bitsPoly Config.crcIvec = ∑ i ∈ Finset.range 7, X ^ i :=
  Finset.sum_congr rfl fun i hi =>
    if_pos ((by decide : ∀ i < 7, Config.crcIvec.getLsbD i = true) i (Finset.mem_range.mp hi))

theorem degree_crcGenerator : crcGenerator.degree = 7 := by
  unfold crcGenerator
  compute_degree!

theorem crcGenerator_monic : crcGenerator.Monic := by
  unfold crcGenerator
  monicity!

/-- A word of seven bits is its own remainder. -/
theorem bitsPoly_modByMonic (c : Crc) : bitsPoly c %ₘ crcGenerator = bitsPoly c := by
  rw [Polynomial.modByMonic_eq_self_iff crcGenerator_monic, degree_crcGenerator]
  exact degree_bitsPoly_lt c

/-! ### The remainder (R123) -/

/-- A pass adds a multiple of the generator or nothing. -/
theorem Division.AlignedAt.modByMonic_work_pass {d : Division} {n : Nat} (aligned : d.AlignedAt n) (le : n ≤ 16) :
    bitsPoly (divisionPass d).work %ₘ crcGenerator = bitsPoly d.work %ₘ crcGenerator := by
  rw [aligned.work_pass le]
  split
  · have fits (i : Nat) (set : Config.crcPoly.getLsbD i = true) : n + i < 24 := by
      by_contra out
      rw [getLsbD_crcPoly_of_gt (by omega)] at set
      contradiction
    rw [bitsPoly_xor, bitsPoly_shiftLeft fits, bitsPoly_crcPoly, Polynomial.add_modByMonic,
      Polynomial.self_mul_modByMonic crcGenerator_monic, add_zero]
  · rfl

theorem modByMonic_work_iterate (v : Payload) {k : Nat} (le : k ≤ 17) :
    bitsPoly (divisionPass^[k] (divisionStart v)).work %ₘ crcGenerator =
      bitsPoly (divisionStart v).work %ₘ crcGenerator := by
  induction k with
  | zero => rfl
  | succ k ih =>
    rw [Function.iterate_succ_apply', (alignedAt_iterate v (by omega)).modByMonic_work_pass (by omega), ih (by omega)]

theorem bitsPoly_crc7 (v : Payload) :
    bitsPoly (crc7 v) = (bitsPoly v * X ^ 7 + bitsPoly Config.crcIvec) %ₘ crcGenerator := by
  calc bitsPoly (crc7 v)
      = bitsPoly (crc7 v) %ₘ crcGenerator := (bitsPoly_modByMonic _).symm
    _ = bitsPoly (divisionPass^[17] (divisionStart v)).work %ₘ crcGenerator := by
        rw [work_iterate_seventeen, bitsPoly_append, bitsPoly_zero, zero_mul, zero_add]
    _ = bitsPoly (v ++ Config.crcIvec) %ₘ crcGenerator := modByMonic_work_iterate v le_rfl
    _ = _ := by rw [bitsPoly_append]

/-- Settles O50: the loop keeps the remainder of the working register, which starts as the dividend and ends as crc7. -/
theorem crc7IsPolynomialRemainder : Obligations.Crc7IsPolynomialRemainder := by
  intro v
  rw [bitsPoly_crc7, bitsPoly_crcIvec]

/-! ### The affine law (R124) -/

/-- The remainder split into the part linear in the message and the initial vector. -/
theorem bitsPoly_crc7_eq_add (v : Payload) :
    bitsPoly (crc7 v) = bitsPoly v * X ^ 7 %ₘ crcGenerator + bitsPoly Config.crcIvec := by
  rw [bitsPoly_crc7, Polynomial.add_modByMonic, bitsPoly_modByMonic]

theorem crc7_xor (a b : Payload) : crc7 (a ^^^ b) = crc7 a ^^^ crc7 b ^^^ Config.crcIvec := by
  apply bitsPoly_injective
  simp only [bitsPoly_xor, bitsPoly_crc7_eq_add, add_mul, Polynomial.add_modByMonic]
  rw [add_add_add_comm, CharTwo.add_self_eq_zero, add_zero]

/-- The eighteen numbers of R124's table. -/
theorem crc7_table : crc7 0 = 0x7F ∧
    (List.range 17).map (fun i => crc7 (1#17 <<< i)) =
      [0x76, 0x6D, 0x5B, 0x37, 0x66, 0x4D, 0x1B, 0x3E, 0x74, 0x69, 0x53, 0x27, 0x46, 0x0D, 0x12, 0x2C, 0x50] := by
  set_option maxRecDepth 20000 in decide

/-- M_i is the table's number less the initial vector. -/
theorem crcBasis_eq_crc7_xor {i : Nat} (lt : i < 17) :
    crcBasis.getD i 0 = crc7 (1#17 <<< i) ^^^ Config.crcIvec := by
  have columns : crcBasis = ((List.range 17).map fun i => crc7 (1#17 <<< i)).map (· ^^^ Config.crcIvec) := by
    rw [crc7_table.2]
    decide
  rw [columns]
  simp [List.getD_eq_getElem?_getD, lt]

theorem bitsPoly_one_shiftLeft {i : Nat} (lt : i < 17) : bitsPoly (1#17 <<< i) = X ^ i := by
  have one : bitsPoly 1#17 = 1 := by simp [bitsPoly]
  rw [bitsPoly_shiftLeft (fun j set => ?_), one, one_mul]
  have low : j = 0 := by simpa using set
  omega

theorem bitsPoly_crcBasis {i : Nat} (lt : i < 17) : bitsPoly (crcBasis.getD i 0) = X ^ (i + 7) %ₘ crcGenerator := by
  rw [crcBasis_eq_crc7_xor lt, bitsPoly_xor, bitsPoly_crc7_eq_add, bitsPoly_one_shiftLeft lt, ← pow_add, add_assoc,
    CharTwo.add_self_eq_zero, add_zero]

/-- XOR over the set bits among the first `n` is a sum over GF(2). -/
theorem bitsPoly_foldl_xor {m : Nat} (bit : Nat → Bool) (row : Nat → BitVec m) (start : BitVec m) (n : Nat) :
    bitsPoly ((List.range n).foldl (fun x i => if bit i then x ^^^ row i else x) start) =
      ∑ i ∈ Finset.range n, (if bit i then bitsPoly (row i) else 0) + bitsPoly start := by
  induction n with
  | zero => simp
  | succ n ih =>
    rw [List.range_succ, List.foldl_append, Finset.sum_range_succ, List.foldl_cons, List.foldl_nil]
    split
    · rw [bitsPoly_xor, ih, add_right_comm]
    · rw [ih, add_zero]

theorem mul_modByMonic_eq_sum_crcBasis (v : Payload) :
    bitsPoly v * X ^ 7 %ₘ crcGenerator =
      ∑ i ∈ Finset.range 17, if v.getLsbD i then bitsPoly (crcBasis.getD i 0) else 0 := by
  rw [bitsPoly, Finset.sum_mul]
  rw [← Polynomial.modByMonicHom_apply, map_sum]
  refine Finset.sum_congr rfl fun i hi => ?_
  rw [bitsPoly_crcBasis (Finset.mem_range.mp hi)]
  split
  · rw [← pow_add, Polynomial.modByMonicHom_apply]
  · rw [zero_mul, map_zero]

theorem crc7_eq_foldl_crcBasis (v : Payload) :
    crc7 v = (List.range 17).foldl (fun x i => if v.getLsbD i then x ^^^ crcBasis.getD i 0 else x) Config.crcIvec := by
  apply bitsPoly_injective
  rw [bitsPoly_crc7_eq_add, bitsPoly_foldl_xor, mul_modByMonic_eq_sum_crcBasis]

/-- Settles O51: the message enters the remainder linearly, through the remainders M_i of its bits. -/
theorem crc7IsAffine : Obligations.Crc7IsAffine :=
  ⟨crc7_xor, crc7_eq_foldl_crcBasis, crc7_table.1, crc7_table.2,
    fun _ lt => ⟨crcBasis_eq_crc7_xor lt, bitsPoly_crcBasis lt⟩⟩

end Sys2Proof.Machine
end

section
/-! Payload extraction (42_decode.md): the outcomes of DecodeSub, the sub-blocks it accepts, the bit errors it detects,
and DECODE and MEASURE on a correct image. -/

namespace Sys2Proof.Machine

/-! ### The outcome of DecodeSub (R141 to R144) -/

theorem decodeSub_of_checksum_eq {sb : SubBlock} (valid : sb.b2.getLsbD 0 = true)
    (checksum : sb.b2.extractLsb' 1 7 = crc7 (1#1 ++ (sb.b1 ++ sb.b0))) :
    decodeSub sb = .ok (sb.b1 ++ sb.b0) := by
  rw [decodeSub, extract_valid, extract_chk, extract_value, extract_v17_of_valid valid, if_neg (by simp [valid]),
    if_neg (not_not_intro checksum)]

/-- Settles O17: the valid bit decides first, then whether the checksum matches. -/
theorem decodeSubOutcome : Obligations.DecodeSubOutcome := by
  refine fun sb => ⟨decodeSub_of_valid_clear, fun valid => ⟨⟨fun mismatch checksum => ?_, ?_⟩, ?_⟩⟩
  · rw [decodeSub_of_checksum_eq valid checksum] at mismatch
    cases mismatch
  · exact decodeSub_of_checksum_ne valid
  · exact decodeSub_of_checksum_eq valid

/-! ### The accepted sub-blocks (R143, R146) -/

theorem decodeSub_eq_ok_iff (sb : SubBlock) (v : Half) :
    decodeSub sb = .ok v ↔
      sb.b2.getLsbD 0 = true ∧ (extract sb).chk = crc7 (extract sb).v17 ∧ (extract sb).value = v := by
  rw [← extract_valid]
  obtain ⟨valid, eq⟩ | ⟨-, checksum, eq⟩ | ⟨valid, checksum, eq⟩ := decodeSub_cases sb
  · simp [eq, valid, -extract_valid]
  · simp [eq, checksum, -extract_chk]
  · simp [eq, valid, checksum, -extract_valid, -extract_chk, -extract_value]

/-- The third byte of a correct sub-block: the checksum above the set valid bit (R86). -/
theorem eq_append_one_iff (b : Byte) (c : Crc) : b = c ++ 1#1 ↔ b.getLsbD 0 = true ∧ b.extractLsb' 1 7 = c := by
  constructor
  · rintro rfl
    refine ⟨by rw [BitVec.getLsbD_append]; rfl, ?_⟩
    ext i lt
    rw [BitVec.getElem_extractLsb', BitVec.getLsbD_append]
    simp [lt]
  · rintro ⟨valid, rfl⟩
    apply BitVec.eq_of_getLsbD_eq
    intro i lt
    rw [BitVec.getLsbD_append, BitVec.getLsbD_extractLsb']
    interval_cases i
    · exact valid
    all_goals rfl

theorem eq_encodeSub_iff (sb : SubBlock) (v : Half) :
    sb = encodeSub v ↔ sb.b1 ++ sb.b0 = v ∧ sb.b2.getLsbD 0 = true ∧ sb.b2.extractLsb' 1 7 = crc7 (1#1 ++ v) := by
  rw [← eq_append_one_iff]
  constructor
  · rintro rfl
    exact ⟨byteOf_one_append_zero v, rfl⟩
  · rintro ⟨rfl, b2⟩
    rw [SubBlock.mk.injEq]
    exact ⟨(byteOf_append_zero sb.b1 sb.b0).symm, (byteOf_append_one sb.b1 sb.b0).symm, b2⟩

theorem decodeSub_eq_ok_iff_encodeSub (sb : SubBlock) (v : Half) : decodeSub sb = .ok v ↔ sb = encodeSub v := by
  rw [decodeSub_eq_ok_iff, eq_encodeSub_iff, extract_chk, extract_value]
  constructor
  · rintro ⟨valid, checksum, rfl⟩
    exact ⟨rfl, valid, extract_v17_of_valid valid ▸ checksum⟩
  · rintro ⟨rfl, valid, checksum⟩
    exact ⟨valid, extract_v17_of_valid valid ▸ checksum, rfl⟩

@[simp] theorem decodeSub_encodeSub (v : Half) : decodeSub (encodeSub v) = .ok v :=
  (decodeSub_eq_ok_iff_encodeSub _ v).mpr rfl

theorem encodeSub_injective : Function.Injective encodeSub := by
  intro v w same
  have decoded : Except.ok v = Except.ok (ε := CmdError) w := by rw [← decodeSub_encodeSub v, same, decodeSub_encodeSub]
  exact Except.ok.inj decoded

/-- Settles O52: the bits of an accepted sub-block are those Encode writes, and Encode is undone by DecodeSub. -/
theorem decodeAcceptsOnlyEncoded : Obligations.DecodeAcceptsOnlyEncoded :=
  ⟨decodeSub_eq_ok_iff_encodeSub, fun _ _ same => encodeSub_injective same⟩

/-! ### Changed bits (R147)

The checksum is affine (R124), so a changed bit changes the syndrome of a sub-block by a column that depends on its place
alone. -/

/-- The stored checksum XOR the computed one: zero where they match. -/
def SubBlock.syndrome (sb : SubBlock) : Crc := (extract sb).chk ^^^ crc7 (extract sb).v17

/-- What changing bit `i` of a sub-block adds to its syndrome: M_i of R124 for a message bit, the bit itself for a
checksum bit. -/
def syndromeColumn (i : Fin 24) : Crc := if i.val < 17 then crcBasis.getD i.val 0 else 1#7 <<< (i.val - 17)

/-- The 24 bits of a sub-block in the order in which `SubBlock.flip` counts them. -/
def SubBlock.bits (sb : SubBlock) : BitVec 24 := sb.b2 ++ sb.b1 ++ sb.b0

theorem SubBlock.bits_xor (x y : SubBlock) :
    (SubBlock.mk (x.b0 ^^^ y.b0) (x.b1 ^^^ y.b1) (x.b2 ^^^ y.b2)).bits = x.bits ^^^ y.bits :=
  (BitVec.xor_append.trans (congrArg (· ++ (x.b0 ^^^ y.b0)) BitVec.xor_append)).symm

theorem SubBlock.bits_flip (sb : SubBlock) (i : Fin 24) : (sb.flip i).bits = sb.bits ^^^ 1#24 <<< i.val := by
  have low : ∀ i < 8, (SubBlock.mk (1#8 <<< i) 0#8 0#8).bits = 1#24 <<< i := by decide
  have middle : ∀ i < 16, ¬ i < 8 → (SubBlock.mk 0#8 (1#8 <<< (i - 8)) 0#8).bits = 1#24 <<< i := by decide
  have high : ∀ i < 24, ¬ i < 16 → (SubBlock.mk 0#8 0#8 (1#8 <<< (i - 16))).bits = 1#24 <<< i := by decide
  unfold SubBlock.flip
  split_ifs with in_b0 in_b1
  · simp [← low _ in_b0, ← SubBlock.bits_xor]
  · simp [← middle _ in_b1 in_b0, ← SubBlock.bits_xor]
  · simp [← high _ i.isLt in_b1, ← SubBlock.bits_xor]

theorem extract_v17_eq_bits (sb : SubBlock) : (extract sb).v17 = sb.bits.extractLsb' 0 17 := by
  apply BitVec.eq_of_getLsbD_eq
  intro i lt
  rw [extract_v17, SubBlock.bits, BitVec.getLsbD_extractLsb']
  simp only [BitVec.getLsbD_append, BitVec.getLsbD_extractLsb']
  interval_cases i <;> rfl

theorem extract_chk_eq_bits (sb : SubBlock) : (extract sb).chk = sb.bits.extractLsb' 17 7 := by
  apply BitVec.eq_of_getLsbD_eq
  intro i lt
  rw [extract_chk, SubBlock.bits, BitVec.getLsbD_extractLsb', BitVec.getLsbD_extractLsb']
  simp only [BitVec.getLsbD_append]
  interval_cases i <;> rfl

/-- A bit above the message is shifted out of the payload. -/
theorem extract_flip_v17 (sb : SubBlock) (i : Fin 24) :
    (extract (sb.flip i)).v17 = (extract sb).v17 ^^^ 1#17 <<< i.val := by
  have mask : ∀ i : Fin 24, (1#24 <<< i.val).extractLsb' 0 17 = 1#17 <<< i.val := by decide
  rw [extract_v17_eq_bits, SubBlock.bits_flip, BitVec.extractLsb'_xor, mask, extract_v17_eq_bits]

theorem extract_flip_chk (sb : SubBlock) (i : Fin 24) :
    (extract (sb.flip i)).chk = (extract sb).chk ^^^ (if i.val < 17 then 0#7 else 1#7 <<< (i.val - 17)) := by
  have mask : ∀ i : Fin 24,
      (1#24 <<< i.val).extractLsb' 17 7 = if i.val < 17 then 0#7 else 1#7 <<< (i.val - 17) := by decide
  rw [extract_chk_eq_bits, SubBlock.bits_flip, BitVec.extractLsb'_xor, mask, extract_chk_eq_bits]

theorem extract_flip_value (sb : SubBlock) (i : Fin 24) :
    (extract (sb.flip i)).value = (extract sb).value ^^^ 1#16 <<< i.val := by
  have mask : ∀ i : Fin 24, (1#17 <<< i.val).extractLsb' 0 16 = 1#16 <<< i.val := by decide
  show (extract (sb.flip i)).v17.extractLsb' 0 16 = (extract sb).v17.extractLsb' 0 16 ^^^ _
  rw [extract_flip_v17, BitVec.extractLsb'_xor, mask]

/-- The valid bit is bit 16. -/
theorem valid_flip (sb : SubBlock) (i : Fin 24) :
    (sb.flip i).b2.getLsbD 0 = (sb.b2.getLsbD 0 ^^ decide (i = 16)) := by
  have mask : ∀ i : Fin 24, (1#17 <<< i.val).getLsbD 16 = decide (i = 16) := by decide
  rw [← extract_valid, ← extract_valid]
  show (extract (sb.flip i)).v17.getLsbD 16 = ((extract sb).v17.getLsbD 16 ^^ _)
  rw [extract_flip_v17, BitVec.getLsbD_xor, mask]

theorem SubBlock.syndrome_flip (sb : SubBlock) (i : Fin 24) :
    (sb.flip i).syndrome = sb.syndrome ^^^ syndromeColumn i := by
  have column : (if i.val < 17 then 0#7 else 1#7 <<< (i.val - 17)) ^^^ (crc7 (1#17 <<< i.val) ^^^ Config.crcIvec) =
      syndromeColumn i := by
    unfold syndromeColumn
    split
    next message => rw [crcBasis_eq_crc7_xor message, BitVec.zero_xor]
    next checksum =>
      have shifted_out : 1#17 <<< i.val = 0 := BitVec.shiftLeft_eq_zero (not_lt.mp checksum)
      rw [shifted_out, crc7_table.1]
      exact BitVec.xor_zero
  rw [SubBlock.syndrome, extract_flip_v17, extract_flip_chk, crc7_xor, ← column, SubBlock.syndrome]
  ac_rfl

theorem decodeSub_eq_ok_iff_syndrome (sb : SubBlock) (v : Half) :
    decodeSub sb = .ok v ↔ sb.b2.getLsbD 0 = true ∧ sb.syndrome = 0#7 ∧ (extract sb).value = v := by
  rw [decodeSub_eq_ok_iff, SubBlock.syndrome, BitVec.xor_eq_zero_iff]

theorem decodeSub_ne_ok_of_syndrome {sb : SubBlock} (ne : sb.syndrome ≠ 0#7) (w : Half) : decodeSub sb ≠ .ok w :=
  fun ok => ne ((decodeSub_eq_ok_iff_syndrome sb w).mp ok).2.1

theorem valid_encodeSub (v : Half) : (encodeSub v).b2.getLsbD 0 = true :=
  ((decodeSub_eq_ok_iff_syndrome _ v).mp (decodeSub_encodeSub v)).1

@[simp] theorem syndrome_encodeSub (v : Half) : (encodeSub v).syndrome = 0#7 :=
  ((decodeSub_eq_ok_iff_syndrome _ v).mp (decodeSub_encodeSub v)).2.1

theorem extract_encodeSub_value (v : Half) : (extract (encodeSub v)).value = v :=
  ((decodeSub_eq_ok_iff_syndrome _ v).mp (decodeSub_encodeSub v)).2.2

theorem syndromeColumn_ne_zero : ∀ i, syndromeColumn i ≠ 0#7 := by decide

theorem syndromeColumn_injective : Function.Injective syndromeColumn := by decide

/-- P divides 1 + x^3 + x^7, the pattern of value bits 0, 3 and 7 (R147). -/
theorem syndromeColumn_undetected : syndromeColumn 0 ^^^ syndromeColumn 3 ^^^ syndromeColumn 7 = 0#7 := by decide

/-- Settles O53: the columns are nonzero and distinct, so one or two of them leave a nonzero syndrome; those of bits 0, 3
and 7 cancel. -/
theorem oneAndTwoBitErrorsDetected : Obligations.OneAndTwoBitErrorsDetected := by
  refine ⟨fun v i => ⟨decodeSub_ne_ok_of_syndrome ?_, fun flipped => decodeSub_of_valid_clear ?_⟩,
    fun v i j ne => ⟨decodeSub_ne_ok_of_syndrome ?_, fun flipped => decodeSub_of_valid_clear ?_⟩,
    fun v => (decodeSub_eq_ok_iff_syndrome _ _).mpr ⟨?_, ?_, ?_⟩⟩
  · simpa [SubBlock.syndrome_flip] using syndromeColumn_ne_zero i
  · rw [valid_flip, valid_encodeSub, flipped]
    rfl
  · simpa [SubBlock.syndrome_flip] using syndromeColumn_injective.ne ne
  · obtain rfl | rfl := flipped
    · simp only [valid_flip, valid_encodeSub, ne.symm, decide_true, decide_false, Bool.xor_self]
    · simp only [valid_flip, valid_encodeSub, ne, decide_true, decide_false, Bool.xor_self, Bool.xor_false]
  · rw [valid_flip, valid_flip, valid_flip, valid_encodeSub]
    rfl
  · simpa [SubBlock.syndrome_flip] using syndromeColumn_undetected
  · have mask : (1#16 <<< 0 ^^^ 1#16 <<< 3 ^^^ 1#16 <<< 7 : Half) = 0x0089 := by decide
    simp only [extract_flip_value, extract_encodeSub_value, ← mask, BitVec.xor_assoc]
    rfl

/-! ### DECODE and MEASURE on correct sub-blocks (R145, R190) -/

theorem exec_decode_of_ok {sel : Sel} {s : State} {v : Half} (ok : decodeSub (s.regs.image.sub sel) = .ok v) :
    exec (.decode sel) s = .next (s.withRegs ((s.regs.setRaw sel v).setStatus 0x01)) := by
  show Host.Outcome.next (s.withRegs (decodeOp sel s.regs)) = _
  simp [decodeOp, ok, Regs.complete_eq]

/-- Settles O18: DECODE writes the register its sub-block selects. -/
theorem decodeWritesRawOnSuccess : Obligations.DecodeWritesRawOnSuccess := fun _ _ =>
  ⟨exec_decode_of_ok (sel := .temperature), exec_decode_of_ok (sel := .humidity)⟩

theorem exec_measure_of_ok {s : State} {t h : Half} (temperature : decodeSub (s.regs.image.sub .temperature) = .ok t)
    (humidity : decodeSub (s.regs.image.sub .humidity) = .ok h) :
    exec .measure s =
      .next (s.withRegs (ahumOp (((s.regs.setRawT t).setRawH h).setTempC (celsiusWord t)))) := by
  show Host.Outcome.next (s.withRegs (measureOp s.regs)) = _
  simp [measureOp, temperature, humidity, ahumOp]

/-- Settles O31: the three commands leave the registers on which MEASURE computes AH, but for a STATUS that AHUM does
not read. -/
theorem measureIsDecodeConvertAhum : Obligations.MeasureIsDecodeConvertAhum := by
  intro s s₁ s₂ s₃ t h temperature humidity decodeT decodeH convert
  cases decodeT.symm.trans (exec_decode_of_ok (sel := .temperature) temperature)
  cases decodeH.symm.trans (exec_decode_of_ok (sel := .humidity) humidity)
  cases convert
  have status_unread (r : Regs) : ahumOp (r.setStatus 0x01) = ahumOp r :=
    commandOp_setStatus (k := .ahum) (by decide) r 0x01
  rw [exec_measure_of_ok temperature humidity, ← status_unread]
  rfl

end Sys2Proof.Machine
end

section
/-! Conversion (43_convert.md): what CONVERT and AHUM write, and the values of the exact absolute humidity on which the
outcome of AHUM turns. -/

namespace Sys2Proof.Machine

/-! ### CONVERT (R161, R162, R165) -/

theorem exec_convert (s : State) :
    exec .convert s = .next (s.mapRegs fun r => { r with tempC := celsiusWord s.regs.rawT, status := 0x01 }) := rfl

/-- The quotient of R161 is the temperature, with no rounding. -/
theorem celsius_celsiusWord (t : Half) : celsius (celsiusWord t) = (t.toNat : ℚ) / 64 - 27315 / 100 := by
  rw [celsius, celsiusWord_toInt]
  push_cast
  ring

/-- Settles O20: the word is 100 * RAW_T - 1748160, and 1/64 of it is 100 times 1/6400 of it. -/
theorem convertIsExactCelsius : Obligations.ConvertIsExactCelsius := by
  intro s
  have exact_celsius := celsius_celsiusWord s.regs.rawT
  rw [celsius] at exact_celsius
  exact ⟨celsiusWord s.regs.rawT, exec_convert s, celsiusWord_toInt _, exact_celsius, by linarith⟩

theorem tempC_toInt_of_exec_convert {s t : State} (next : exec .convert s = .next t) :
    t.regs.tempC.toInt = 100 * (s.regs.rawT.toNat : Int) - 1748160 := by
  cases next
  exact celsiusWord_toInt s.regs.rawT

/-- A word whose signed value fits 24 bits is the sign extension of its low three bytes. -/
theorem signExtend_low_bytes {c : Word} (lo : -2 ^ 23 ≤ c.toInt) (hi : c.toInt < 2 ^ 23) :
    (c.extractLsb' 0 24).signExtend 32 = c := by
  apply BitVec.eq_of_toInt_eq
  rw [BitVec.toInt_signExtend_of_le (by decide), BitVec.toInt_extractLsb', Nat.shiftRight_zero,
    ← Int.bmod_bmod_of_dvd (show 2 ^ 24 ∣ 2 ^ 32 by decide), ← BitVec.toInt_eq_toNat_bmod]
  exact Int.bmod_eq_of_le (by omega) (by omega)

/-- Settles O21: every clause is one on the integer 100 * RAW_T - 1748160. -/
theorem convertRangeAndSign : Obligations.ConvertRangeAndSign := by
  refine ⟨fun s t next => ?_, fun s s' t t' next next' succ => ?_⟩
  · have value := tempC_toInt_of_exec_convert next
    have lt := s.regs.rawT.isLt
    refine ⟨by omega, by omega, by omega, by omega, signExtend_low_bytes (by omega) (by omega), ?_, ?_, ?_, ?_⟩ <;>
      intro rawT <;> rw [rawT] at value
    · exact BitVec.eq_of_toInt_eq value
    · exact BitVec.eq_of_toInt_eq value
    · exact value
    · exact value
  · rw [tempC_toInt_of_exec_convert next, tempC_toInt_of_exec_convert next', succ]
    omega

/-- Settles O32: MEASURE leaves the converted temperature in TEMP_C and the humidity in RAW_H. -/
theorem measureGivesPhysicalMeasurement : Obligations.MeasureGivesPhysicalMeasurement := by
  intro s u t h temperature humidity next
  cases next.symm.trans (exec_measure_of_ok (s := s) temperature humidity)
  simp [Regs.physical, ahumOp, celsius_celsiusWord, relativeHumidity_eq]

/-! ### The four cases of AHUM (R172 to R174, R176) -/

theorem exec_ahum (s : State) :
    exec .ahum s = .next (s.withRegs (s.regs.completeAh (ahCompute s.regs.rawT s.regs.rawH))) := rfl

section
variable {s : State} {q : Word} {valid ovf dom : Bool}

theorem exec_ahum_of_no_value (result : ahCompute s.regs.rawT s.regs.rawH = ⟨none, valid, ovf, dom⟩) :
    exec .ahum s = .next (s.mapRegs fun r => { r with status := statusComplete valid ovf dom }) := by
  rw [exec_ahum, result]
  rfl

theorem exec_ahum_of_value (result : ahCompute s.regs.rawT s.regs.rawH = ⟨some q, valid, ovf, dom⟩) :
    exec .ahum s = .next (s.mapRegs fun r => { r with ah := q, status := statusComplete valid ovf dom }) := by
  rw [exec_ahum, result]
  rfl

end

/-- Settles O23: AhCompute's cases, in its order. -/
theorem ahumEffect : Obligations.AhumEffect := by
  intro s
  refine ⟨fun rawT => ?_, fun rawT rawH => ?_, fun rawT rawH ovf => ?_, fun rawT rawH ovf => ?_⟩
  · exact exec_ahum_of_no_value (by rw [ahCompute, if_pos rawT])
  · exact exec_ahum_of_value (by rw [ahCompute, if_neg rawT, if_pos rawH])
  · exact exec_ahum_of_value (by rw [ahCompute, if_neg rawT, if_neg rawH, if_pos ovf])
  · exact exec_ahum_of_value (by rw [ahCompute, if_neg rawT, if_neg rawH, if_neg (by simp [ovf])])

/-! ### AHUM against the exact value (R175) -/

/-- A conforming result always saturates or is near the exact value, whichever part of R175 applies. -/
theorem ahAccurate_ovf_or_near {tol x : ℝ} {r : Word × Bool} (accurate : ahAccurate tol x r) :
    r.2 = true ∨ r.2 = false ∧ |(r.1.toNat : ℝ) / 65536 - x| ≤ tol := by
  obtain ⟨below, above, band⟩ := accurate
  obtain le | gt := le_or_gt x (ahMax - tol)
  · exact .inr (below le)
  obtain le | gt' := le_or_gt x (ahMax + tol)
  · exact band gt le
  · exact .inl (above gt')

/-- Settles O24: AHUM carries the unit's result into AH and STATUS. -/
theorem ahumWithinTolerance : Obligations.AhumWithinTolerance := by
  intro s rawT_ne rawH_ne x near saturated
  have accurate := Config.ahApprox_accurate rawT_ne rawH_ne
  obtain ⟨-, -, on_ovf, on_value⟩ := ahumEffect s
  have near_of (result : (Config.ahApprox s.regs.rawT s.regs.rawH).2 = false ∧
      |((Config.ahApprox s.regs.rawT s.regs.rawH).1.toNat : ℝ) / 65536 - x| ≤ Config.ahTol) : near :=
    ⟨_, result.2, on_value rawT_ne rawH_ne result.1⟩
  have saturated_of (ovf : (Config.ahApprox s.regs.rawT s.regs.rawH).2 = true) : saturated :=
    on_ovf rawT_ne rawH_ne ovf
  exact ⟨fun le => near_of (accurate.1 le), fun lt => saturated_of (accurate.2.1 lt),
    ((ahAccurate_ovf_or_near accurate).imp saturated_of near_of).symm⟩

/-- Where AHUM is valid whatever AH_TOL is, with the largest tolerance R6 allows. -/
theorem exec_ahum_near {s : State} (rawT_ne : s.regs.rawT ≠ 0#16) (rawH_ne : s.regs.rawH ≠ 0#16)
    (le : ahExact s.regs.rawT s.regs.rawH ≤ 65535.5) :
    ∃ q : Word, |(q.toNat : ℝ) / 65536 - ahExact s.regs.rawT s.regs.rawH| ≤ 0.48 ∧
      exec .ahum s = .next (s.mapRegs fun r => { r with ah := q, status := 0x11 }) := by
  have tol := Config.ahTol_bounds.2
  have limit : (65535.5 : ℝ) ≤ ahMax - Config.ahTol := by
    unfold ahMax
    norm_num at tol ⊢
    linarith
  obtain ⟨q, near, eq⟩ := (ahumWithinTolerance s rawT_ne rawH_ne).1 (le.trans limit)
  exact ⟨q, near.trans tol, eq⟩

/-- Where AHUM saturates whatever AH_TOL is. -/
theorem exec_ahum_saturates {s : State} (rawT_ne : s.regs.rawT ≠ 0#16) (rawH_ne : s.regs.rawH ≠ 0#16)
    (ge : 65536.5 ≤ ahExact s.regs.rawT s.regs.rawH) :
    exec .ahum s = .next (s.mapRegs fun r => { r with ah := 0xFFFFFFFF, status := 0x21 }) := by
  have tol := Config.ahTol_bounds.2
  have limit : ahMax + Config.ahTol < 65536.5 := by
    unfold ahMax
    norm_num at tol ⊢
    linarith
  exact (ahumWithinTolerance s rawT_ne rawH_ne).2.1 (limit.trans_le ge)

theorem ne_zero_of_le_toNat {n : Nat} {v : Half} (pos : 0 < n) (le : n ≤ v.toNat) : v ≠ 0#16 := by
  rintro rfl
  exact absurd le (by simpa using pos.ne')

/-- Settles O25: below the pole the exact value is beyond the range. -/
theorem ahumSaturatesBelowPole : Obligations.AhumSaturatesBelowPole := by
  intro s rawT_pos rawT_le rawH_pos
  have rawT_ne := ne_zero_of_le_toNat one_pos rawT_pos
  have rawH_ne := ne_zero_of_le_toNat one_pos rawH_pos
  have beyond : (65536.5 : ℝ) ≤ 70000 := by norm_num
  exact exec_ahum_saturates rawT_ne rawH_ne (beyond.trans (ahExact_below_pole rawT_ne rawH_ne rawT_le).le)

/-! ### Exact values (R175, R177)

The rational `ahRefValue` is the exact value with its exponential replaced by a power of its series. It serves here to
bound the exact value, with the error proved; nothing is said of the unit of the block (R178). -/

/-- From 0 °C on the exponent of R170 lies where the series is accurate. -/
theorem ahRefExponent_bounds {n : Nat} (warm : 17482 ≤ n) (lt : n < 65536) :
    -20 < ahRefExponent n ∧ ahRefExponent n ≤ 96 / 7 := by
  have ge : (17482 : ℚ) ≤ n := by exact_mod_cast warm
  have le : (n : ℚ) ≤ 65535 := by exact_mod_cast Nat.le_of_lt_succ lt
  unfold ahRefExponent
  constructor
  · rw [lt_div_iff₀ (by linarith)]
    linarith
  · rw [div_le_iff₀ (by linarith)]
    linarith

theorem ahRefValue_cast (t h : Half) :
    ((ahRefValue t.toNat h.toNat : ℚ) : ℝ) =
      ahCoeff t h * ((ahRefSeries 18 (ahRefExponent t.toNat / 32) : ℚ) : ℝ) ^ 32 := by
  unfold ahRefValue ahCoeff
  push_cast
  ring

/-- Where RAW_H is at most 1.8 times RAW_T the factor before the exponential is at most 3. -/
theorem ahCoeff_le_three {t h : Half} (pos : 0 < t.toNat) (ratio : 10 * h.toNat ≤ 18 * t.toNat) :
    ahCoeff t h ≤ 3 := by
  have pos' : (0 : ℝ) < t.toNat := by exact_mod_cast pos
  have ratio' : 10 * (h.toNat : ℝ) ≤ 18 * t.toNat := by exact_mod_cast ratio
  have quotient : ahCoeff t h = 2.1674 * 6.112 / 8 * h.toNat / t.toNat := by
    unfold ahCoeff
    ring
  rw [quotient, div_le_iff₀ pos']
  linarith

theorem ahRefValue_near_ahExact {t h : Half} (warm : 17482 ≤ t.toNat) (ratio : 10 * h.toNat ≤ 18 * t.toNat) :
    |((ahRefValue t.toNat h.toNat : ℚ) : ℝ) - ahExact t h| ≤ 3 / 1000 := by
  obtain ⟨lo, hi⟩ := ahRefExponent_bounds warm t.isLt
  have near := ahRefPower_near_exp lo hi
  rw [ahRefValue_cast, ahExact_eq (ne_zero_of_le_toNat (by decide) warm), ← ahRefExponent_cast, ← mul_sub, abs_mul,
    abs_of_nonneg (ahCoeff_nonneg t h)]
  calc _ ≤ (3 : ℝ) * (1 / 1000) := by
        gcongr
        exact ahCoeff_le_three (by omega) ratio
    _ = 3 / 1000 := by norm_num

section
variable {t h : Half} {c : ℚ} (warm : 17482 ≤ t.toNat) (ratio : 10 * h.toNat ≤ 18 * t.toNat)
include warm ratio

theorem ahExact_le_of_ahRefValue (le : ahRefValue t.toNat h.toNat + 3 / 1000 ≤ c) : ahExact t h ≤ c := by
  have near := abs_le.mp (ahRefValue_near_ahExact warm ratio)
  have le' := (Rat.cast_le (K := ℝ)).mpr le
  push_cast at le'
  linarith

theorem le_ahExact_of_ahRefValue (le : c + 3 / 1000 ≤ ahRefValue t.toNat h.toNat) : c ≤ ahExact t h := by
  have near := abs_le.mp (ahRefValue_near_ahExact warm ratio)
  have le' := (Rat.cast_le (K := ℝ)).mpr le
  push_cast at le'
  linarith

end

theorem ahRefValue_room :
    11.48 + 3 / 1000 ≤ ahRefValue 19081 25600 ∧ ahRefValue 19082 25600 + 3 / 1000 ≤ 11.52 := by
  norm_num [ahRefValue, ahRefSeries, ahRefExponent, Nat.factorial]

theorem ahRefValue_edges :
    ahRefValue 37991 65535 + 3 / 1000 ≤ 65535.5 ∧ 65536.5 + 3 / 1000 ≤ ahRefValue 37992 65535 ∧
    ahRefValue 39380 51200 + 3 / 1000 ≤ 65535.5 ∧ 65536.5 + 3 / 1000 ≤ ahRefValue 39381 51200 := by
  norm_num [ahRefValue, ahRefSeries, ahRefExponent, Nat.factorial]

/-- The exact values next to 25.0 °C and 50.0 %. -/
theorem ahExact_room : 11.48 ≤ ahExact 19081 25600 ∧ ahExact 19082 25600 ≤ 11.52 := by
  obtain ⟨lo, hi⟩ := ahRefValue_room
  have lo' := le_ahExact_of_ahRefValue (t := 19081) (h := 25600) (by decide) (by decide) lo
  have hi' := ahExact_le_of_ahRefValue (t := 19082) (h := 25600) (by decide) (by decide) hi
  exact_mod_cast And.intro lo' hi'

/-- The last RAW_T in range and the next one, at RAW_H = 65535. -/
theorem ahExact_edge_65535 : ahExact 37991 65535 ≤ 65535.5 ∧ 65536.5 ≤ ahExact 37992 65535 := by
  obtain ⟨last, next, -, -⟩ := ahRefValue_edges
  have last' := ahExact_le_of_ahRefValue (t := 37991) (h := 65535) (by decide) (by decide) last
  have next' := le_ahExact_of_ahRefValue (t := 37992) (h := 65535) (by decide) (by decide) next
  exact_mod_cast And.intro last' next'

/-- The last RAW_T in range and the next one, at 100 %. -/
theorem ahExact_edge_51200 : ahExact 39380 51200 ≤ 65535.5 ∧ 65536.5 ≤ ahExact 39381 51200 := by
  obtain ⟨-, -, last, next⟩ := ahRefValue_edges
  have last' := ahExact_le_of_ahRefValue (t := 39380) (h := 51200) (by decide) (by decide) last
  have next' := le_ahExact_of_ahRefValue (t := 39381) (h := 51200) (by decide) (by decide) next
  exact_mod_cast And.intro last' next'

/-! ### Room temperature and the edge of the range (R175, R177) -/

theorem absoluteHumidity_cast (q : Word) : ((absoluteHumidity q : ℚ) : ℝ) = (q.toNat : ℝ) / 65536 := by
  norm_num [absoluteHumidity, fixedValue]

/-- Settles O26: both exact values lie in [11.48, 11.52], so the tolerance leaves AH in [11, 12]. -/
theorem ahumRoomTemperatureBound : Obligations.AhumRoomTemperatureBound := by
  intro s rawT rawH
  have rise : ahExact 19081 25600 ≤ ahExact 19082 25600 := ahExact_mono (by decide) (by decide) (by decide)
  have bounds : s.regs.rawT ≠ 0#16 ∧ 11.48 ≤ ahExact s.regs.rawT s.regs.rawH ∧
      ahExact s.regs.rawT s.regs.rawH ≤ 11.52 := by
    obtain ⟨lo, hi⟩ := ahExact_room
    rw [rawH]
    obtain rawT | rawT := rawT <;> rw [rawT]
    · exact ⟨by decide, lo, rise.trans hi⟩
    · exact ⟨by decide, lo.trans rise, hi⟩
  obtain ⟨rawT_ne, lo, hi⟩ := bounds
  obtain ⟨q, near, eq⟩ := exec_ahum_near rawT_ne (by rw [rawH]; decide) (hi.trans (by norm_num))
  rw [← absoluteHumidity_cast, abs_le] at near
  refine ⟨q, ?_, ?_, eq⟩ <;> rw [← Rat.cast_le (K := ℝ)] <;> push_cast <;> linarith

/-- Settles O27: the exact value rises with RAW_T, so its values on the two sides of the edge bound it. -/
theorem ahumRangeEdge : Obligations.AhumRangeEdge := by
  obtain ⟨last_65535, next_65535⟩ := ahExact_edge_65535
  obtain ⟨last_51200, next_51200⟩ := ahExact_edge_51200
  refine ⟨fun s above edge => ?_, fun s edge => ?_⟩
  · have bound : s.regs.rawH ≠ 0#16 ∧ ahExact s.regs.rawT s.regs.rawH ≤ 65535.5 := by
      obtain ⟨le, rawH⟩ | ⟨le, rawH⟩ := edge <;> rw [rawH]
      · exact ⟨by decide, (ahExact_mono (u := 37991) above le (by decide)).trans last_65535⟩
      · exact ⟨by decide, (ahExact_mono (u := 39380) above le (by decide)).trans last_51200⟩
    obtain ⟨rawH_ne, le⟩ := bound
    obtain ⟨q, -, eq⟩ := exec_ahum_near (ne_zero_of_le_toNat (by decide) above) rawH_ne le
    exact ⟨q, eq⟩
  · have bound : s.regs.rawT ≠ 0#16 ∧ s.regs.rawH ≠ 0#16 ∧ 65536.5 ≤ ahExact s.regs.rawT s.regs.rawH := by
      obtain ⟨ge, rawH⟩ | ⟨ge, rawH⟩ := edge <;> rw [rawH] <;>
        refine ⟨ne_zero_of_le_toNat (by decide) ge, by decide, ?_⟩
      · exact next_65535.trans (ahExact_mono (by decide) ge (by decide))
      · exact next_51200.trans (ahExact_mono (by decide) ge (by decide))
    obtain ⟨rawT_ne, rawH_ne, ge⟩ := bound
    exact exec_ahum_saturates rawT_ne rawH_ne ge

end Sys2Proof.Machine
end

section
/-! MEASURE (44_measure.md): what it writes where both sub-blocks are correct, and its errors. -/

namespace Sys2Proof.Machine

section
variable {s : State} {t h : Half} {e : CmdError}

/-! ### Both sub-blocks correct (R190, R192, R193) -/

/-- With both sub-blocks correct, MEASURE is AHUM on the registers that hold the new RAW_T, RAW_H and TEMP_C. -/
theorem exec_measure_eq_exec_ahum (temperature : decodeSub (s.regs.image.sub .temperature) = .ok t)
    (humidity : decodeSub (s.regs.image.sub .humidity) = .ok h) :
    exec .measure s =
      exec .ahum (s.withRegs (((s.regs.setRawT t).setRawH h).setTempC (celsiusWord t))) :=
  exec_measure_of_ok temperature humidity

/-! ### An error in a sub-block (R191) -/

theorem exec_measure_of_raise {sel : Sel} (raises : measureOp s.regs = s.regs.raise e sel) :
    exec .measure s = .next (s.mapRegs fun r => { r with status := statusRaise e sel }) := by
  show Host.Outcome.next (s.withRegs (measureOp s.regs)) = _
  rw [raises]
  rfl

theorem exec_measure_of_temperature_error (error : decodeSub (s.regs.image.sub .temperature) = .error e) :
    exec .measure s = .next (s.mapRegs fun r => { r with status := statusRaise e .temperature }) :=
  exec_measure_of_raise (by simp only [measureOp, error])

theorem exec_measure_of_humidity_error (temperature : decodeSub (s.regs.image.sub .temperature) = .ok t)
    (error : decodeSub (s.regs.image.sub .humidity) = .error e) :
    exec .measure s = .next (s.mapRegs fun r => { r with status := statusRaise e .humidity }) :=
  exec_measure_of_raise (by simp only [measureOp, temperature, error])

end

/-- Settles O28: the four cases of AHUM, on the registers that hold the new values. -/
theorem measureWritesAllResults : Obligations.MeasureWritesAllResults := by
  intro s t h temperature humidity
  rw [exec_measure_eq_exec_ahum temperature humidity]
  obtain ⟨no_value, zero, saturated, value⟩ :=
    ahumEffect (s.withRegs (((s.regs.setRawT t).setRawH h).setTempC (celsiusWord t)))
  by_cases rawT : t = 0#16
  · simp only [if_pos rawT]
    exact no_value rawT
  by_cases rawH : h = 0#16
  · simp only [if_neg rawT, if_pos rawH]
    exact zero rawT rawH
  simp only [if_neg rawT, if_neg rawH]
  cases ovf : (Config.ahApprox t h).2
  · exact value rawT rawH ovf
  · exact saturated rawT rawH ovf

/-- Settles O30: of the old results, what MEASURE writes (O28) reads only AH, and that only at t = 0. -/
theorem measureIgnoresOldResults : Obligations.MeasureIgnoresOldResults := by
  intro s t h x y c a v temperature humidity ah_unread
  rw [measureWritesAllResults s t h temperature humidity, measureWritesAllResults _ t h]
  · obtain rawT | rfl := ah_unread
    · simp only [if_neg rawT]
      rfl
    · rfl
  · exact temperature
  · exact humidity

/-- Settles O29: MEASURE raises the error of the first sub-block that has one. -/
theorem measureChecksTemperatureFirst : Obligations.MeasureChecksTemperatureFirst := by
  intro s tb hb
  refine ⟨fun error => ?_, fun error => ?_, fun t ok error => ?_, fun t ok error => ?_⟩
  · simpa using exec_measure_of_temperature_error (s := s) error
  · simpa using exec_measure_of_temperature_error (s := s) error
  · simpa using exec_measure_of_humidity_error (s := s) ok error
  · simpa using exec_measure_of_humidity_error (s := s) ok error

end Sys2Proof.Machine
end

section
/-! Exceptions (60_exceptions.md): what raise writes, and that the state after a failed command is precise. -/

namespace Sys2Proof.Machine

/-! ### raise (R303) -/

/-- OK is 0, ERR and ERR_SUB name the error, and no AH flag stands (R24 to R29). -/
theorem statusRaise_fields (e : CmdError) (sub : Sel) :
    statusOk (statusRaise e sub) = false ∧ statusErr (statusRaise e sub) = errorCode e ∧
    statusErrSub (statusRaise e sub) = (sub == .humidity) ∧ statusAhValid (statusRaise e sub) = false ∧
    statusAhOvf (statusRaise e sub) = false ∧ statusAhDom (statusRaise e sub) = false := by
  cases e <;> cases sub <;> decide

/-- Settles O33: raise is one write of STATUS, and the bits of the value written give its fields. -/
theorem raiseWritesStatusAlone : Obligations.RaiseWritesStatusAlone := by
  refine ⟨fun r e sub => ?bits, rfl, rfl, rfl, fun r => ?values, fun r e sub => ?fields⟩
  case bits =>
    rw [Regs.raise_eq]
    rfl
  case values => simp
  case fields =>
    rw [Regs.raise_status]
    exact statusRaise_fields e sub

/-! ### Precise errors (R308) -/

/-- Of the nine values a command leaves in STATUS, the five with OK = 0 are those of the errors (R31, R303). -/
theorem mem_raised_of_not_ok :
    ∀ v ∈ ([0x01, 0x11, 0x21, 0x41, 0x02, 0x0A, 0x04, 0x0C, 0x06] : List Byte), statusOk v = false →
      v ∈ ([0x02, 0x0A, 0x04, 0x0C, 0x06] : List Byte) := by decide

/-- A command but NOP ends in one of two ways: it completes with OK = 1, or all it does is raise (R103, R303). -/
theorem commandOp_ok_or_raise {k : Command} (ne_nop : k ≠ .nop) (r : Regs) :
    statusOk (commandOp k r).status = true ∨ ∃ e sub, commandOp k r = r.raise e sub := by
  cases k with
  | nop => exact absurd rfl ne_nop
  | crc7 sel => exact .inl (statusOk_complete false false false)
  | decode sel =>
    obtain ⟨e, -, raises⟩ | ⟨v, -, completes⟩ := decodeOp_cases sel r
    · exact .inr ⟨e, sel, raises⟩
    · exact .inl (by simp only [commandOp, completes, Regs.complete_status, statusOk_complete])
  | convert => exact .inl (statusOk_complete false false false)
  | ahum => exact .inl (by simp only [commandOp, ahumOp, Regs.completeAh_status, statusOk_complete])
  | measure =>
    obtain ⟨e, -, raises⟩ | ⟨t, e, -, -, raises⟩ | ⟨t, h, -, -, completes⟩ := measureOp_cases r
    · exact .inr ⟨e, .temperature, raises⟩
    · exact .inr ⟨e, .humidity, raises⟩
    · exact .inl (by simp only [commandOp, completes, Regs.completeAh_status, statusOk_complete])
  | illegal => exact .inr ⟨.illegalCommand, .temperature, rfl⟩

/-- Settles O34: the value is one of the nine (O35) with OK = 0, and a command that did not complete only raised. -/
theorem failedCommandIsPrecise : Obligations.FailedCommandIsPrecise := by
  intro i s t cmd8 ne_nop next failed
  refine ⟨mem_raised_of_not_ok _ ((commandsOverwriteStatus i s 0 cmd8 ne_nop).2 t next) failed, ?_⟩
  obtain ⟨c, k, nop, rfl⟩ := exists_command_of_cmd8 cmd8 ne_nop
  rw [exec_commandInstr] at next
  cases next
  obtain ok | ⟨e, sub, raises⟩ := commandOp_ok_or_raise nop s.regs
  · exact absurd (ok.symm.trans failed) (by decide)
  · rw [raises]
    rfl

end Sys2Proof.Machine
end

section
/-! Reset (70_reset_and_hazards.md): a transaction whose ack has not come when reset is asserted is dropped. -/

namespace Sys2Proof.Machine

/-- Reset is looked at before req and the other signals, so what they are in its cycle does not matter (log 8), and it
leaves the port idle (log 7). -/
theorem portActions_pending_reset (wait : Nat → Nat) (n : Nat) {c : PortCycle} (cs : List PortCycle)
    (in_reset : c.rstN = false) (w : BusWord) (left : Nat) :
    portActions wait n (.pending w left) (c :: cs) = .resetDuring w :: portActions wait (n + 1) .idle cs := by
  simp [portActions, portCycle, in_reset]

/-- Settles O56: before its ack a held request is pending (R53), and reset in that phase names it as dropped (R402). -/
theorem resetDropsPendingTransaction : Obligations.ResetDropsPendingTransaction := by
  intro wait n k w c cs early in_reset
  rw [portActions_hold wait w _ early, portActions_pending_reset wait n cs in_reset]

end Sys2Proof.Machine
end

section
/-! The idle step (20_memory.md R50): the block has no step of its own. -/

namespace Sys2Proof.Machine

theorem step_of_no_action {s : State} (inputs : s.inputs = []) : step s = .next s.idle := by
  simp [step, inputs]

/-- Settles O11: the step is `State.idle`, which replaces the port's output by the quiet one and nothing else (R50, log 1). -/
theorem idleStepKeepsRegisters : Obligations.IdleStepKeepsRegisters := by
  intro s inputs
  rw [step_of_no_action inputs, State.idle, PortOut.quiet]

end Sys2Proof.Machine
end
